-- ==== Sys2Proof/Word.lean ====
section
/-! DEFINITION. The words of the block: bytes, operation-select words, timestamps, and the decimal pair
(spec/00_scope.md R6, spec/30_encoding.md R43, R56). -/

namespace Sys2Proof

/-- One byte of the register block or of the device's register space (spec/30_encoding.md R47). -/
abbrev Byte := BitVec 8

/-- One `OP4` operation-select word (spec/30_encoding.md R43). -/
abbrev OpWord := BitVec 4

/-- Seconds since the epoch, 64 bits, read as two's complement (spec/10_state.md R13). -/
abbrev Timestamp := BitVec 64

end Sys2Proof
end

