-- ==== Sys2Proof/Syntax.lean ====
section
/-! DEFINITION. The two formats of the block (spec/30_encoding.md R42): the ten operations that an `OP4` word
selects, and the register block `RB7` with its structured view; and the calendar record. -/

namespace Sys2Proof

/-- The ten operations, in the order of their numbers (spec/30_encoding.md R45). None has an operand field (R44). -/
inductive Instr where
  | rdblk
  | decode
  | chkosc
  | tocal
  | chkcal
  | hpush
  | hget
  | fromcal
  | encode
  | wrblk
deriving DecidableEq, Repr

/-- An `RB7` value: seven bytes, block byte 0 to block byte 6 (spec/30_encoding.md R47). -/
structure RawBlock where
  b0 : Byte
  b1 : Byte
  b2 : Byte
  b3 : Byte
  b4 : Byte
  b5 : Byte
  b6 : Byte
deriving DecidableEq, Repr, Inhabited

/-- The structured view `F`: fifteen sub-fields, each as wide as its bit range (spec/10_state.md R11). -/
structure Fields where
  vl         : BitVec 1
  secTens    : BitVec 3
  secUnits   : BitVec 4
  minTens    : BitVec 3
  minUnits   : BitVec 4
  hourTens   : BitVec 2
  hourUnits  : BitVec 4
  weekday    : BitVec 3
  dayTens    : BitVec 2
  dayUnits   : BitVec 4
  century    : BitVec 1
  monthTens  : BitVec 1
  monthUnits : BitVec 4
  yearTens   : BitVec 4
  yearUnits  : BitVec 4
deriving DecidableEq, Repr, Inhabited

/-- The calendar record `C` (spec/10_state.md R13). `ts = none` is the record with `C.valid = 0`, whose timestamp
holds no value; `ts = some t` is the record with `C.valid = 1` (R14; DEDUCED, assumption 2). -/
structure Calendar where
  second  : BitVec 8
  minute  : BitVec 8
  hour    : BitVec 8
  weekday : BitVec 8
  day     : BitVec 8
  month   : BitVec 8
  year    : BitVec 16
  ts      : Option Timestamp
deriving DecidableEq, Repr, Inhabited

/-- `C.valid` (spec/10_state.md R14). -/
def Calendar.valid (c : Calendar) : Bool := c.ts.isSome

end Sys2Proof
end

