-- ==== Sys2Proof/WellFormed.lean ====
section
/-! DEFINITION. Which words select an operation. An operation itself has no operand that could be ill formed
(spec/30_encoding.md R44), so the one check is on the `OP4` word. -/

namespace Sys2Proof

/-- The word is one of the ten assigned numbers; the six others are reserved (spec/30_encoding.md R45, R46). -/
def OpWord.assigned (w : OpWord) : Bool :=
  (1#4 ≤ w && w ≤ 6#4) || (8#4 ≤ w && w ≤ 0xB#4)

/-- Every word of a caller's sequence selects an operation (spec/30_encoding.md R58). -/
def OpWord.allAssigned (ws : List OpWord) : Bool := ws.all OpWord.assigned

/-- Every operation is well formed: it has no operand field and no immediate (spec/30_encoding.md R44). -/
def Instr.wellFormed (_i : Instr) : Bool := true

end Sys2Proof
end

