-- ==== Sys2Proof/Decode.lean ====
section
/-! DEFINITION. The operation select `OP4` (spec/30_encoding.md R43 to R46): the decoder, and the encoder beside it.
The numbers are the spec's own labels (spec/92_eei_decisions.md D2). -/

namespace Sys2Proof

/-- Why a word selects no operation. -/
inductive DecodeError where
  /-- One of the six unassigned numbers (spec/30_encoding.md R46). Safe: the word has no step. -/
  | reserved (w : OpWord)
deriving DecidableEq, Repr

/-- The operation a word selects (spec/30_encoding.md R45); a reserved number is rejected by name (R46). -/
def decode (w : OpWord) : Except DecodeError Instr :=
  match w with
  | 0x1#4 => .ok .rdblk
  | 0x2#4 => .ok .decode
  | 0x3#4 => .ok .chkosc
  | 0x4#4 => .ok .tocal
  | 0x5#4 => .ok .chkcal
  | 0x6#4 => .ok .hpush
  | 0x8#4 => .ok .hget
  | 0x9#4 => .ok .fromcal
  | 0xA#4 => .ok .encode
  | 0xB#4 => .ok .wrblk
  | _ => .error (.reserved w)

/-- The number of an operation (spec/30_encoding.md R45). -/
def encode : Instr → OpWord
  | .rdblk => 0x1#4
  | .decode => 0x2#4
  | .chkosc => 0x3#4
  | .tocal => 0x4#4
  | .chkcal => 0x5#4
  | .hpush => 0x6#4
  | .hget => 0x8#4
  | .fromcal => 0x9#4
  | .encode => 0xA#4
  | .wrblk => 0xB#4

/-- The `OP4` word that stands in the low four bits of a number; bits above bit 3 are no part of the word
(spec/30_encoding.md R43; DESIGN CHOICE, assumption 20). -/
def opWordOf (w : Nat) : OpWord := BitVec.ofNat 4 w

/-- The operation the decoder reads from a table word whose bits are `w`; `none` where it rejects the word. -/
def decodeTableWord (_nbits w : Nat) : Option Instr :=
  match decode (opWordOf w) with
  | .ok i => some i
  | .error _ => none

end Sys2Proof
end

