-- ==== Sys2Proof/Config.lean ====
section
/-! DEFINITION. What is fixed for a machine and what is left free: the numbers the spec fixes, the parameters it
leaves OPEN (spec/00_scope.md R4), the shapes of the environment's inputs, and the free values. -/

namespace Sys2Proof

/-- What `FROMCAL` does outside the ranges of spec/42_calendar.md R78 (`FROMCAL_OOR`, spec/00_scope.md R4). -/
inductive OorPolicy where
  /-- Keep the low bits of each digit, as the reference does (spec/42_calendar.md R79, R81). -/
  | truncate
  /-- Refuse the operation (spec/42_calendar.md R81). -/
  | refuse
deriving DecidableEq, Repr

/-- The OPEN parameters that a rule reads (spec/00_scope.md R4). -/
structure Params where
  /-- `TS_MIN`, two's complement. -/
  tsMin : Timestamp
  /-- `TS_MAX`, two's complement. -/
  tsMax : Timestamp
  /-- `FROMCAL_OOR`. -/
  fromcalOor : OorPolicy
deriving DecidableEq, Repr

/-- The defaults of spec/00_scope.md R4: `TS_MIN` is -2^63, `TS_MAX` is 2^63 - 1, `FROMCAL_OOR` is `truncate`. -/
def Params.default : Params :=
  { tsMin := 0x8000000000000000#64, tsMax := 0x7FFFFFFFFFFFFFFF#64, fromcalOor := .truncate }

/-- The port's answer to a read: the success indicator and the delivered bytes, whose number is the count `got`
(spec/20_memory.md R28; DEDUCED, assumption 23). -/
structure ReadAnswer where
  ok    : Bool
  bytes : List Byte
deriving DecidableEq, Repr, Inhabited

/-- The count of bytes a read delivered (spec/20_memory.md R28). -/
def ReadAnswer.got (a : ReadAnswer) : Nat := a.bytes.length

/-- What the device and the host clock have come to on their own before a step (spec/10_state.md R22;
DESIGN CHOICE, assumptions 10 and 12). -/
structure WorldMove where
  device   : RawBlock
  hostTime : Option Timestamp
deriving DecidableEq, Repr, Inhabited

/-- The names a weekday number could have. -/
inductive DayName where
  | monday | tuesday | wednesday | thursday | friday | saturday | sunday
deriving DecidableEq, Repr, Inhabited

namespace Config

/-- `BLOCK_ADDR` (spec/00_scope.md R4). -/
abbrev blockAddr : Byte := 0x02#8

/-- `BLOCK_LEN` (spec/00_scope.md R4). -/
abbrev blockLen : Nat := 7

/-- `YEAR_BASE` and `YEAR_MIN` (spec/00_scope.md R4). -/
abbrev yearMin : Nat := 1900

/-- `YEAR_MAX` (spec/00_scope.md R4). -/
abbrev yearMax : Nat := 2099

/-- `WEEKDAY_ORIGIN`, OPEN and read by no rule: which day the number 0 names (spec/42_calendar.md R80).
Free: nothing can be proved of it (assumption 15). -/
opaque weekdayOrigin : DayName

/-- Free value: the port's answer to a read, where `State.reads` gives none (assumption 7). -/
opaque freeRead : Nat → ReadAnswer

/-- Free value: the port's answer to a write, where `State.writes` gives none (assumption 7). -/
opaque freeWriteOk : Nat → Bool

/-- Free value: the host's answer, where `State.hosts` gives none (assumption 7). -/
opaque freeHost : Nat → Calendar

/-- Free value: what device and host clock come to, where `State.moves` gives nothing (assumption 10). -/
opaque freeMove : Nat → WorldMove

/-- Free value: what the device holds at the block's reset (spec/10_state.md R25; assumption 11). -/
opaque resetDevice : RawBlock

/-- Free value: the host clock's time at the block's reset (assumption 12). -/
opaque resetHostTime : Option Timestamp

/-- Free value: what the device holds after a failed write (spec/20_memory.md R34; assumption 22). -/
opaque freeDevice : Nat → RawBlock

/-- Free value: whether writing a 1 to a clear VL sets it (spec/10_state.md R20; assumption 13). -/
opaque freeVl : Nat → Bool

end Config
end Sys2Proof
end

