-- ==== Sys2Proof/Machine/State.lean ====
section
/-! DEFINITION. The state of the machine (spec/10_state.md R9): the block's registers, the state outside the block
that its rules read or write, the parameters, and the model's own fields for the caller and the environment. -/

namespace Sys2Proof.Machine

/-- The four errors (spec/60_exceptions.md R95). Codes 5 to 7 are never written, so there is no room for them. -/
inductive SyncError where
  /-- Code 1: a port failure or a wrong read count; raised by `RDBLK` and `WRBLK` (R96). -/
  | transportError
  /-- Code 2: the oscillator has stopped; raised by `CHKOSC` (R97). -/
  | clockHalted
  /-- Code 3: the calendar predicate is false; raised by `CHKCAL` (R98). -/
  | invalidCalendar
  /-- Code 4: the host has no valid time; raised by `HGET` (R99). -/
  | hostClockInvalid
deriving DecidableEq, Repr

/-- The three register groups that have a written tag (spec/10_state.md R16). -/
inductive Group where
  | raw
  | f
  | c
deriving DecidableEq, Repr

/-- A call the block makes to one of its two ports (spec/00_scope.md R7). -/
inductive PortCall where
  /-- `MemRead(addr, n)`. -/
  | memRead (addr : Byte) (n : Nat)
  /-- `MemWrite(addr, n, b)`, where `n` is the number of bytes. -/
  | memWrite (addr : Byte) (bytes : List Byte)
  /-- `HostGet()`. -/
  | hostGet
  /-- `HostSet(ts)`. -/
  | hostSet (ts : Timestamp)
deriving DecidableEq, Repr

/-- What the caller does when its current sequence has ended (DESIGN CHOICE, assumption 4). -/
inductive CallerAct where
  /-- Issue a sequence of operations (spec/44_sequences.md R90). -/
  | run (ops : List OpWord)
  /-- Reset the block (spec/70_reset_and_hazards.md R114). -/
  | reset
deriving DecidableEq, Repr

/-- The device's registers as (address, byte) pairs, addresses strictly rising. -/
abbrev Memory := List Host.Cell

/-- The device addresses in scope, 0x02 to 0x08 (spec/20_memory.md R31). -/
abbrev Memory.mapped (a : Nat) : Prop := 2 ≤ a ∧ a ≤ 8

/-- The canonical form: addresses strictly rising, all of them in scope. An unlisted address reads as no value, so no
entry can equal what an unlisted address reads as. -/
abbrev Memory.wf (m : Memory) : Prop :=
  (m.map Prod.fst).Pairwise (· < ·) ∧ ∀ p ∈ m, Memory.mapped p.1

/-- What an unlisted address reads as: no value. The seven addresses in scope are listed from reset on
(`Safety.Inv`); every other address is a register the spec does not specify (spec/10_state.md R19; assumption 11). -/
def Memory.unlisted : Option Byte := none

/-- The device's registers holding a block, byte `k` at `0x02 + k` (spec/10_state.md R19). -/
def Memory.ofBlock (r : RawBlock) : Memory :=
  [(2, r.b0), (3, r.b1), (4, r.b2), (5, r.b3), (6, r.b4), (7, r.b5), (8, r.b6)]

/-- The whole state (spec/10_state.md R9). -/
structure State where
  /-- `RAW[0..6]`, and by holding a value the tag `RAW.w` (spec/10_state.md R10, R16; assumption 1). -/
  raw : Option RawBlock
  /-- `F`, and by holding a value the tag `F.w` (spec/10_state.md R11, R16; assumption 1). -/
  f : Option Fields
  /-- `C`, and by holding a value the tag `C.w` (spec/10_state.md R13, R16; assumption 1). -/
  c : Option Calendar
  /-- `ST.halted` (spec/10_state.md R15). -/
  halted : Bool
  /-- `ST.cal_ok` (spec/10_state.md R15). -/
  calOk : Bool
  /-- `ERR` (spec/10_state.md R18): the last error of the current transaction, `none` for code 0
  (DEDUCED, assumption 8). -/
  err : Option SyncError
  /-- `DEV[0x02 .. 0x08]`: what the device holds when the step ends (spec/10_state.md R19; assumption 10). -/
  dev : Memory
  /-- The host clock's time when the step ends, `none` for unset (spec/43_ports.md R87; assumption 12). -/
  hostTime : Option Timestamp
  /-- The parameters of the machine; no step changes them (spec/00_scope.md R4; assumption 15). -/
  params : Params
  /-- MODEL: the words left of the caller's current sequence (spec/44_sequences.md R90; assumption 4). -/
  seq : List OpWord
  /-- MODEL: what the caller does after it (assumption 4). -/
  queue : List CallerAct
  /-- MODEL: the port's answers to reads, oldest first (spec/20_memory.md R41; assumption 7). -/
  reads : List ReadAnswer
  /-- MODEL: the port's answers to writes, oldest first (spec/20_memory.md R41; assumption 7). -/
  writes : List Bool
  /-- MODEL: the host's answers, oldest first (spec/43_ports.md R87; assumption 7). -/
  hosts : List Calendar
  /-- MODEL: what device and host clock come to before each step (spec/10_state.md R22; assumption 10). -/
  moves : List WorldMove
  /-- MODEL: the counter the free values are applied to (assumption 9). -/
  draws : Nat
  /-- MODEL: the calls made to the two ports, newest first (assumption 14). -/
  calls : List PortCall
deriving DecidableEq, Repr

/-- Nothing stops the block with a fault: each of the four errors is reported and the block goes on
(spec/60_exceptions.md R106; assumption 16). -/
inductive Fault where
deriving DecidableEq, Repr

/-- Why the spec gives a step no next state. -/
inductive Refusal where
  /-- Raised by an arm of `exec` whose instruction has no meaning yet; no arm does. Safe. -/
  | notModelled (mnemonic : String)
  /-- Raised by `step`: the word is one of the six reserved numbers (spec/30_encoding.md R46). Safe. -/
  | reservedNumber (w : OpWord)
  /-- Raised by an operation whose source group's written tag is 0 (spec/70_reset_and_hazards.md R121). Safe. -/
  | unwritten (g : Group)
  /-- Raised by `HPUSH` when `C.valid = 0` (spec/43_ports.md R85). Safe. -/
  | notValid
  /-- Raised by `FROMCAL` outside the ranges of R78 when `FROMCAL_OOR` is `refuse` (spec/42_calendar.md R81). Safe. -/
  | outOfRange
deriving DecidableEq, Repr

/-- The machine right after reset (spec/10_state.md R25): the groups hold no value, the flags and `ERR` are 0, the
parameters stand at their defaults (spec/00_scope.md R4). Reset touches neither device nor host
(spec/70_reset_and_hazards.md R114): every register of the device and the host clock's time hold a free value
(spec/93_implementation_defined.md U9; assumptions 11 and 12). The caller and the environment have nothing planned, and
the counter stands at 0 (DESIGN CHOICE, assumptions 4, 7, 9, 10, 14). -/
def State.reset : State :=
  { raw := none, f := none, c := none, halted := false, calOk := false, err := none,
    dev := Memory.ofBlock Config.resetDevice, hostTime := Config.resetHostTime, params := Params.default,
    seq := [], queue := [], reads := [], writes := [], hosts := [], moves := [], draws := 0, calls := [] }

end Sys2Proof.Machine
end

