-- ==== Sys2Proof/Machine/Ops.lean ====
section
/-! DEFINITION. The named operations over the state: the device's registers, the two ports, the environment's own
changes, entering an error and returning from one, and fetching the caller's next operation. -/

namespace Sys2Proof.Machine

/-! ### The device's registers -/

/-- One device register; an address that is not listed reads as `Memory.unlisted`. -/
def Memory.read : Memory → Nat → Option Byte
  | [], _ => Memory.unlisted
  | (b, v) :: m, a => if a = b then some v else Memory.read m a

/-- The registers after one byte is written; the addresses stay strictly rising. -/
def Memory.write : Memory → Nat → Byte → Memory
  | [], a, v => [(a, v)]
  | (b, u) :: m, a, v =>
    if a < b then (a, v) :: (b, u) :: m
    else if a = b then (a, v) :: m
    else (b, u) :: Memory.write m a v

/-- A run of bytes written in ascending address order, byte `k` to `a + k` (spec/20_memory.md R29, R32). -/
def Memory.writeRun : Memory → Nat → List Byte → Memory
  | m, _, [] => m
  | m, a, v :: vs => Memory.writeRun (Memory.write m a v) (a + 1) vs

/-- The seven bytes in block order (spec/30_encoding.md R47). -/
def blockBytes (r : RawBlock) : List Byte := [r.b0, r.b1, r.b2, r.b3, r.b4, r.b5, r.b6]

/-- The block of exactly seven bytes; a list of any other length is none (spec/40_codec.md R59). -/
def blockOfBytes : List Byte → Option RawBlock
  | [b0, b1, b2, b3, b4, b5, b6] => some ⟨b0, b1, b2, b3, b4, b5, b6⟩
  | _ => none

/-- What is known of the device's VL: bit 7 of `DEV[0x02]` (spec/10_state.md R20). -/
def deviceVl (m : Memory) : Option Bool := (Memory.read m 2).map (fun b => b.getLsbD 7)

/-- A byte with bit 7 replaced. -/
def withBit7 (b : Byte) (v : Bool) : Byte := (BitVec.ofBool v) ++ (b.setWidth 7)

/-- The seconds byte the device moves to on its own: VL is sticky, so it stays set where it was
(spec/10_state.md R20). -/
def stickyVl (m : Memory) (b : Byte) : Byte :=
  withBit7 b (b.getLsbD 7 || deviceVl m == some true)

/-- The seconds byte the device holds after a byte is written to 0x02 (spec/20_memory.md R40). A 0 in bit 7 clears
VL; a 1 keeps a VL that was set; whether a 1 sets a clear VL is not said (spec/10_state.md R20), so there the bit is
the free value `free` (assumption 13). -/
def writtenVl (m : Memory) (b : Byte) (free : Bool) : Byte :=
  if b.getLsbD 7 && deviceVl m != some true then withBit7 b free else b

/-- The block the device holds after a write that succeeded (spec/20_memory.md R40, spec/43_ports.md R83). -/
def heldBlock (m : Memory) (r : RawBlock) (free : Bool) : RawBlock :=
  { r with b0 := writtenVl m r.b0 free }

/-! ### The two ports -/

/-- The answer to a read: the next one given, else a free value (spec/20_memory.md R41; assumption 7). -/
def readAnswer (s : State) : ReadAnswer := s.reads.headD (Config.freeRead s.draws)

/-- The answer to a write: the next one given, else a free value (spec/20_memory.md R41; assumption 7). -/
def writeAnswer (s : State) : Bool := s.writes.headD (Config.freeWriteOk s.draws)

/-- The host's answer: the next one given, else a free value (spec/43_ports.md R87; assumptions 3 and 7). -/
def hostAnswer (s : State) : Calendar := s.hosts.headD (Config.freeHost s.draws)

/-- `MemRead(addr, n)` was called and has answered (spec/20_memory.md R28); it changes no register (R35). -/
def afterMemRead (addr : Byte) (n : Nat) (s : State) : State :=
  { s with reads := s.reads.tail, draws := s.draws + 1, calls := .memRead addr n :: s.calls }

/-- `MemWrite(addr, 7, r)` was called and has answered (spec/20_memory.md R29). After success the device holds the
block (R40); after a failure its seven registers are any value (R34; assumption 22). -/
def afterMemWrite (addr : Byte) (r : RawBlock) (s : State) : State :=
  { s with
    writes := s.writes.tail
    draws := s.draws + 1
    calls := .memWrite addr (blockBytes r) :: s.calls
    dev := Memory.writeRun s.dev addr.toNat (blockBytes
      (if writeAnswer s then heldBlock s.dev r (Config.freeVl s.draws) else Config.freeDevice s.draws)) }

/-- `HostGet()` was called and has answered (spec/43_ports.md R87). -/
def afterHostGet (s : State) : State :=
  { s with hosts := s.hosts.tail, draws := s.draws + 1, calls := .hostGet :: s.calls }

/-- `HostSet(ts)`: the host takes the value as its time (spec/43_ports.md R87). -/
def hostSet (t : Timestamp) (s : State) : State :=
  { s with hostTime := some t, calls := .hostSet t :: s.calls }

/-- The bytes of a read that counts as a success: `ok` is true and the count is 7 (spec/20_memory.md R30). -/
def answerBlock (a : ReadAnswer) : Option RawBlock :=
  if a.ok then blockOfBytes a.bytes else none

/-! ### Errors and transactions -/

/-- `raise E` (spec/60_exceptions.md R100): `ERR` takes the code, the three written tags are cleared, nothing else of
the block changes. The caller's sequence ends (spec/44_sequences.md R90; DEDUCED, assumption 5). -/
def raise (e : SyncError) (s : State) : State :=
  { s with err := some e, raw := none, f := none, c := none, seq := [] }

/-- The block's transient state cleared: the tags, `ST` and `ERR`. It is how a transaction begins
(spec/43_ports.md R86), how an error is left behind (spec/60_exceptions.md R102), and what reset does
(spec/70_reset_and_hazards.md R114). -/
def clearBlock (s : State) : State :=
  { s with raw := none, f := none, c := none, halted := false, calOk := false, err := none }

/-! ### The environment and the caller -/

/-- What device and host clock come to before the step: the next one given, else a free value (assumption 10). -/
def nextMove (s : State) : WorldMove := s.moves.headD (Config.freeMove s.draws)

/-- The device and the host clock change on their own (spec/10_state.md R22); the device keeps a set VL (R20). -/
def worldMove (s : State) : State :=
  { s with
    moves := s.moves.tail
    draws := s.draws + 1
    hostTime := (nextMove s).hostTime
    dev := Memory.writeRun s.dev Config.blockAddr.toNat (blockBytes
      { (nextMove s).device with b0 := stickyVl s.dev (nextMove s).device.b0 }) }

/-- The next word of the caller's sequence, and the state with the word taken (spec/10_state.md R17). -/
def fetch (s : State) : Option (OpWord × State) :=
  match s.seq with
  | [] => none
  | w :: ws => some (w, { s with seq := ws })

/-- The caller between sequences: it begins the next one, resets the block, or issues nothing, and the block waits
(spec/70_reset_and_hazards.md R114, R115; DESIGN CHOICE, assumption 6). -/
def callerAct (s : State) : State :=
  match s.queue with
  | [] => s
  | .run ops :: q => { s with seq := ops, queue := q }
  | .reset :: q => { clearBlock s with queue := q }

end Sys2Proof.Machine
end

