-- ==== Sys2Proof/Machine/Operands.lean ====
section
/-! DEFINITION. The operands of the operations: the register groups with their `require` clauses, the codec between
the register block and the structured view, and the conversions between that view and the calendar record. -/

namespace Sys2Proof.Machine

/-! ### The register groups -/

/-- `RAW.w` (spec/10_state.md R16). -/
def State.rawW (s : State) : Bool := s.raw.isSome

/-- `F.w` (spec/10_state.md R16). -/
def State.fW (s : State) : Bool := s.f.isSome

/-- `C.w` (spec/10_state.md R16). -/
def State.cW (s : State) : Bool := s.c.isSome

/-- `C.valid` of the state: 0 when the group holds no value (spec/10_state.md R14). -/
def State.cValid (s : State) : Bool := (s.c.map Calendar.valid).getD false

/-- An operation that reads `RAW`: `require RAW.w = 1`, else refused (spec/70_reset_and_hazards.md R121). -/
def withRaw (s : State) (k : RawBlock → Host.Outcome State Fault Refusal) : Host.Outcome State Fault Refusal :=
  match s.raw with
  | some r => k r
  | none => .refused (.unwritten .raw)

/-- An operation that reads `F`: `require F.w = 1`, else refused (spec/70_reset_and_hazards.md R121). -/
def withF (s : State) (k : Fields → Host.Outcome State Fault Refusal) : Host.Outcome State Fault Refusal :=
  match s.f with
  | some f => k f
  | none => .refused (.unwritten .f)

/-- An operation that reads `C`: `require C.w = 1`, else refused (spec/70_reset_and_hazards.md R121). -/
def withC (s : State) (k : Calendar → Host.Outcome State Fault Refusal) : Host.Outcome State Fault Refusal :=
  match s.c with
  | some c => k c
  | none => .refused (.unwritten .c)

/-! ### The register block `RB7` -/

/-- `Decode(r)` (spec/40_codec.md R59; bit positions spec/30_encoding.md R48 to R54). The unused bits are dropped.
The layout of byte 5 is the recovered one (spec/90_conflicts.md C1; DEDUCED, assumptions 17 and 25). -/
def decodeBlock (r : RawBlock) : Fields :=
  { vl         := r.b0.extractLsb 7 7
    secTens    := r.b0.extractLsb 6 4
    secUnits   := r.b0.extractLsb 3 0
    minTens    := r.b1.extractLsb 6 4
    minUnits   := r.b1.extractLsb 3 0
    hourTens   := r.b2.extractLsb 5 4
    hourUnits  := r.b2.extractLsb 3 0
    weekday    := r.b3.extractLsb 2 0
    dayTens    := r.b4.extractLsb 5 4
    dayUnits   := r.b4.extractLsb 3 0
    century    := r.b5.extractLsb 7 7
    monthTens  := r.b5.extractLsb 4 4
    monthUnits := r.b5.extractLsb 3 0
    yearTens   := r.b6.extractLsb 7 4
    yearUnits  := r.b6.extractLsb 3 0 }

/-- `Encode(f)` (spec/40_codec.md R60): each sub-field in its bit range, every unused bit 0
(spec/30_encoding.md R55; assumptions 17 and 25). -/
def encodeBlock (f : Fields) : RawBlock :=
  { b0 := (f.vl ++ f.secTens ++ f.secUnits : BitVec (1 + 3 + 4))
    b1 := (0#1 ++ f.minTens ++ f.minUnits : BitVec (1 + 3 + 4))
    b2 := (0#2 ++ f.hourTens ++ f.hourUnits : BitVec (2 + 2 + 4))
    b3 := (0#5 ++ f.weekday : BitVec (5 + 3))
    b4 := (0#2 ++ f.dayTens ++ f.dayUnits : BitVec (2 + 2 + 4))
    b5 := (f.century ++ 0#2 ++ f.monthTens ++ f.monthUnits : BitVec (1 + 2 + 1 + 4))
    b6 := (f.yearTens ++ f.yearUnits : BitVec (4 + 4)) }

/-- The bits of the block that belong to a field, byte by byte (spec/30_encoding.md R55). -/
def usedBits : RawBlock := ⟨0xFF#8, 0x7F#8, 0x3F#8, 0x07#8, 0x3F#8, 0x9F#8, 0xFF#8⟩

/-- The bytes ANDed one by one (spec/30_encoding.md R55). -/
def andBlock (r m : RawBlock) : RawBlock :=
  ⟨r.b0 &&& m.b0, r.b1 &&& m.b1, r.b2 &&& m.b2, r.b3 &&& m.b3, r.b4 &&& m.b4, r.b5 &&& m.b5, r.b6 &&& m.b6⟩

/-! ### Digits and calendar values -/

/-- The value of a decimal pair, `tens*10 + units`, in 8 bits (spec/30_encoding.md R56). -/
def pairValue {m n : Nat} (tens : BitVec m) (units : BitVec n) : BitVec 8 :=
  tens.setWidth 8 * 10#8 + units.setWidth 8

/-- `ToCal(f)` (spec/42_calendar.md R75): the seven components; the timestamp has no value. -/
def toCal (f : Fields) : Calendar :=
  { second  := pairValue f.secTens f.secUnits
    minute  := pairValue f.minTens f.minUnits
    hour    := pairValue f.hourTens f.hourUnits
    weekday := f.weekday.setWidth 8
    day     := pairValue f.dayTens f.dayUnits
    month   := pairValue f.monthTens f.monthUnits
    year    := 1900#16 + 100#16 * f.century.setWidth 16 + f.yearTens.setWidth 16 * 10#16 + f.yearUnits.setWidth 16
    ts      := none }

/-- The tens digit of a value, cut to the width of its field (spec/42_calendar.md R76, R81). -/
def tensDigit {w : Nat} (n : Nat) (v : BitVec w) : BitVec n := (v / BitVec.ofNat w 10).setWidth n

/-- The units digit of a value (spec/42_calendar.md R76). -/
def unitsDigit {w : Nat} (v : BitVec w) : BitVec 4 := (v % BitVec.ofNat w 10).setWidth 4

/-- `FromCal(c)` (spec/42_calendar.md R76). VL is always written 0; the weekday keeps its low three bits (R80). -/
def fromCal (c : Calendar) : Fields :=
  { vl         := 0#1
    secTens    := tensDigit 3 c.second
    secUnits   := unitsDigit c.second
    minTens    := tensDigit 3 c.minute
    minUnits   := unitsDigit c.minute
    hourTens   := tensDigit 2 c.hour
    hourUnits  := unitsDigit c.hour
    weekday    := c.weekday.setWidth 3
    dayTens    := tensDigit 2 c.day
    dayUnits   := unitsDigit c.day
    century    := BitVec.ofBool (decide (2000#16 ≤ c.year))
    monthTens  := tensDigit 1 c.month
    monthUnits := unitsDigit c.month
    yearTens   := tensDigit 4 (c.year % 100#16)
    yearUnits  := unitsDigit (c.year % 100#16) }

/-- The ranges of spec/42_calendar.md R78, outside which `FROMCAL_OOR = refuse` refuses (R81). -/
def calInRange (c : Calendar) : Bool :=
  1900#16 ≤ c.year && c.year ≤ 2099#16 && c.second ≤ 59#8 && c.minute ≤ 59#8 && c.hour ≤ 23#8
    && 1#8 ≤ c.day && c.day ≤ 31#8 && 1#8 ≤ c.month && c.month ≤ 12#8 && c.weekday ≤ 7#8

/-- `BcdWellFormed(F)` (spec/10_state.md R12): decimal digits and calendar ranges, digit by digit. No operation
enforces it. -/
def bcdWellFormed (f : Fields) : Bool :=
  f.secUnits ≤ 9#4 && f.minUnits ≤ 9#4 && f.hourUnits ≤ 9#4 && f.dayUnits ≤ 9#4 && f.monthUnits ≤ 9#4
    && f.yearUnits ≤ 9#4 && f.yearTens ≤ 9#4
    && f.secTens ≤ 5#3 && f.minTens ≤ 5#3 && f.hourTens ≤ 2#2
    && decide (10 * f.hourTens.toNat + f.hourUnits.toNat ≤ 23)
    && decide (1 ≤ 10 * f.dayTens.toNat + f.dayUnits.toNat)
    && decide (10 * f.dayTens.toNat + f.dayUnits.toNat ≤ 31)
    && decide (1 ≤ 10 * f.monthTens.toNat + f.monthUnits.toNat)
    && decide (10 * f.monthTens.toNat + f.monthUnits.toNat ≤ 12)
    && f.weekday ≤ 6#3

end Sys2Proof.Machine
end

