-- ==== Sys2Proof/Machine/Flags.lean ====
section
/-! DEFINITION. The answers of the validity detector and the error register: the oscillator flag, the calendar
functions (spec/41_validity.md R66 to R69), the calendar predicate (R70), and the code of `ERR`. -/

namespace Sys2Proof.Machine

/-- `OscStopped(f)`: the VL flag is set (spec/41_validity.md R65). -/
def oscStopped (f : Fields) : Bool := f.vl == 1#1

/-- `IsLeap(y)` (spec/41_validity.md R66). -/
def isLeap (y : Nat) : Bool := (y % 4 == 0 && y % 100 != 0) || y % 400 == 0

/-- `DaysInMonth(y, m)`, defined for `1 ≤ m ≤ 12` only (spec/41_validity.md R67). -/
def daysInMonth (y m : Nat) : Option Nat :=
  if m = 1 ∨ m = 3 ∨ m = 5 ∨ m = 7 ∨ m = 8 ∨ m = 10 ∨ m = 12 then some 31
  else if m = 4 ∨ m = 6 ∨ m = 9 ∨ m = 11 then some 30
  else if m = 2 then some (if isLeap y then 29 else 28)
  else none

/-- `CUM[m-1]`, the days of a common year before month `m`, defined for `1 ≤ m ≤ 12` (spec/41_validity.md R68). -/
def daysBeforeMonth (m : Nat) : Option Int :=
  if 1 ≤ m then
    ([0, 31, 59, 90, 120, 151, 181, 212, 243, 273, 304, 334] : List Int)[m - 1]?
  else none

/-- `L(y)`, the leap days before year `y`, in signed integers (spec/41_validity.md R68; assumption 21 for year 0). -/
def leapDays (y : Nat) : Int := ((y : Int) - 1) / 4 - ((y : Int) - 1) / 100 + ((y : Int) - 1) / 400

/-- `DaysFromEpoch(y, m, d)`, defined for `1 ≤ m ≤ 12` (spec/41_validity.md R68). -/
def daysFromEpoch (y m d : Nat) : Option Int :=
  (daysBeforeMonth m).map fun cum =>
    365 * ((y : Int) - 1970) + (leapDays y - 477) + cum + (if 2 < m ∧ isLeap y then 1 else 0) + ((d : Int) - 1)

/-- `Timestamp(c)`, defined for `1 ≤ c.month ≤ 12` (spec/41_validity.md R69). -/
def timestamp (c : Calendar) : Option Int :=
  (daysFromEpoch c.year.toNat c.month.toNat c.day.toNat).map fun d =>
    d * 86400 + (c.hour.toNat : Int) * 3600 + (c.minute.toNat : Int) * 60 + (c.second.toNat : Int)

/-- The clause `1 ≤ c.day ≤ DaysInMonth(c.year, c.month)` (spec/41_validity.md R70). -/
def dayInMonth (c : Calendar) : Bool :=
  match daysInMonth c.year.toNat c.month.toNat with
  | some n => decide (1 ≤ c.day.toNat ∧ c.day.toNat ≤ n)
  | none => false

/-- The clause `TS_MIN ≤ Timestamp(c) ≤ TS_MAX` (spec/41_validity.md R70). -/
def stampInBounds (p : Params) (c : Calendar) : Bool :=
  match timestamp c with
  | some t => decide (p.tsMin.toInt ≤ t ∧ t ≤ p.tsMax.toInt)
  | none => false

/-- `CalOK(c)` (spec/41_validity.md R70), its clauses from left to right. -/
def calendarOk (p : Params) (c : Calendar) : Bool :=
  decide (c.second.toNat ≤ 59) && decide (c.minute.toNat ≤ 59) && decide (c.hour.toNat ≤ 23)
    && decide (1 ≤ c.month.toNat ∧ c.month.toNat ≤ 12)
    && decide (Config.yearMin ≤ c.year.toNat ∧ c.year.toNat ≤ Config.yearMax)
    && dayInMonth c && stampInBounds p c

/-- The record `CHKCAL` completes: `C.ts <- Timestamp(C)`, `C.valid <- 1` (spec/41_validity.md R71). -/
def stamped (c : Calendar) : Calendar := { c with ts := (timestamp c).map (BitVec.ofInt 64) }

/-- The record with `C.valid <- 0`, its timestamp without a value (spec/10_state.md R14). -/
def unstamped (c : Calendar) : Calendar := { c with ts := none }

/-- The code of an error (spec/60_exceptions.md R95). -/
def SyncError.code : SyncError → BitVec 3
  | .transportError => 1#3
  | .clockHalted => 2#3
  | .invalidCalendar => 3#3
  | .hostClockInvalid => 4#3

/-- `ERR` as the caller reads it: 3 bits, 0 for none (spec/10_state.md R18). -/
def State.errCode (s : State) : BitVec 3 :=
  match s.err with
  | none => 0#3
  | some e => e.code

end Sys2Proof.Machine
end

