-- ==== Sys2Proof/Machine/Codec.lean ====
section
/-! DEFINITION. The register codec: `DECODE` and `ENCODE` (spec/40_codec.md). Neither checks anything (R63). -/

namespace Sys2Proof.Machine

/-- `DECODE` (spec/40_codec.md R59): `F <- Decode(RAW)`, `F.w <- 1`. -/
def execDecode (s : State) : Host.Outcome State Fault Refusal :=
  withRaw s fun r => .next { s with f := some (decodeBlock r) }

/-- `ENCODE` (spec/40_codec.md R60): `RAW <- Encode(F)`, `RAW.w <- 1`. -/
def execEncode (s : State) : Host.Outcome State Fault Refusal :=
  withF s fun f => .next { s with raw := some (encodeBlock f) }

end Sys2Proof.Machine
end

