-- ==== Sys2Proof/Machine/Conversion.lean ====
section
/-! DEFINITION. The calendar conversions: `TOCAL` and `FROMCAL` (spec/42_calendar.md). -/

namespace Sys2Proof.Machine

/-- `TOCAL` (spec/42_calendar.md R75): `C <- ToCal(F)`, `C.valid <- 0`, `C.w <- 1`. -/
def execTocal (s : State) : Host.Outcome State Fault Refusal :=
  withF s fun f => .next { s with c := some (toCal f) }

/-- `FROMCAL` (spec/42_calendar.md R76): `F <- FromCal(C)`, `F.w <- 1`. With `FROMCAL_OOR = refuse` it is refused
outside the ranges of R78 (R81). -/
def execFromcal (s : State) : Host.Outcome State Fault Refusal :=
  withC s fun c =>
    if s.params.fromcalOor = .refuse ∧ calInRange c = false then .refused .outOfRange
    else .next { s with f := some (fromCal c) }

end Sys2Proof.Machine
end

