-- ==== Sys2Proof/Machine/Ports.lean ====
section
/-! DEFINITION. The two ports: `RDBLK`, `WRBLK`, `HGET` and `HPUSH` (spec/43_ports.md). -/

namespace Sys2Proof.Machine

/-- `RDBLK` (spec/43_ports.md R82): clear the transient state (R86), issue `MemRead(0x02, 7)`; a success loads `RAW`,
anything else raises TransportError. -/
def execRdblk (s : State) : Host.Outcome State Fault Refusal :=
  let s' := afterMemRead Config.blockAddr Config.blockLen (clearBlock s)
  .next (match answerBlock (readAnswer s) with
    | some r => { s' with raw := some r }
    | none => raise .transportError s')

/-- `WRBLK` (spec/43_ports.md R83): issue `MemWrite(0x02, 7, RAW)`; a failure raises TransportError. -/
def execWrblk (s : State) : Host.Outcome State Fault Refusal :=
  withRaw s fun r =>
    let s' := afterMemWrite Config.blockAddr r s
    .next (if writeAnswer s then s' else raise .transportError s')

/-- `HGET` (spec/43_ports.md R84): clear the transient state (R86), ask the host for its time; a valid record goes to
`C` whole, an invalid one raises HostClockInvalid. -/
def execHget (s : State) : Host.Outcome State Fault Refusal :=
  let s' := afterHostGet (clearBlock s)
  .next (if (hostAnswer s).valid then { s' with c := some (hostAnswer s) } else raise .hostClockInvalid s')

/-- `HPUSH` (spec/43_ports.md R85): `require C.w = 1 and C.valid = 1`, then `HostSet(C.ts)`. -/
def execHpush (s : State) : Host.Outcome State Fault Refusal :=
  withC s fun c =>
    match c.ts with
    | some t => .next (hostSet t s)
    | none => .refused .notValid

end Sys2Proof.Machine
end

