-- ==== Sys2Proof/Machine/Validity.lean ====
section
/-! DEFINITION. The validity detector: `CHKOSC` and `CHKCAL` (spec/41_validity.md). -/

namespace Sys2Proof.Machine

/-- `CHKOSC` (spec/41_validity.md R65): `ST.halted <- OscStopped(F)`; when it is true, raise ClockHalted. -/
def execChkosc (s : State) : Host.Outcome State Fault Refusal :=
  withF s fun f =>
    if oscStopped f then .next (raise .clockHalted { s with halted := true })
    else .next { s with halted := false }

/-- `CHKCAL` (spec/41_validity.md R71): `ST.cal_ok <- CalOK(C)`; when it is true the record takes its timestamp and
`C.valid <- 1`; when false `C.valid <- 0` and InvalidCalendar is raised. -/
def execChkcal (s : State) : Host.Outcome State Fault Refusal :=
  withC s fun c =>
    if calendarOk s.params c then .next { s with calOk := true, c := some (stamped c) }
    else .next (raise .invalidCalendar { s with calOk := false, c := some (unstamped c) })

end Sys2Proof.Machine
end

