-- ==== Sys2Proof/Machine/Dispatch.lean ====
section
/-! DEFINITION. The meaning of each operation, one arm per constructor (spec/30_encoding.md R45). -/

namespace Sys2Proof.Machine

def exec (i : Instr) (s : State) : Host.Outcome State Fault Refusal :=
  match i with
  | .rdblk => Sys2Proof.Machine.execRdblk s
  | .decode => Sys2Proof.Machine.execDecode s
  | .chkosc => Sys2Proof.Machine.execChkosc s
  | .tocal => Sys2Proof.Machine.execTocal s
  | .chkcal => Sys2Proof.Machine.execChkcal s
  | .hpush => Sys2Proof.Machine.execHpush s
  | .hget => Sys2Proof.Machine.execHget s
  | .fromcal => Sys2Proof.Machine.execFromcal s
  | .encode => Sys2Proof.Machine.execEncode s
  | .wrblk => Sys2Proof.Machine.execWrblk s

end Sys2Proof.Machine
end

