-- ==== Sys2Proof/Machine/Step.lean ====
section
/-! DEFINITION. One step of the machine. -/

namespace Sys2Proof.Machine

/-- The operation a word selects, run; a reserved number is refused (spec/30_encoding.md R46). -/
def runWord (w : OpWord) (s : State) : Host.Outcome State Fault Refusal :=
  match decode w with
  | .ok i => exec i s
  | .error (.reserved w') => .refused (.reservedNumber w')

/-- One step: the device and the host clock change on their own (spec/10_state.md R22), then the caller's next
operation runs (spec/44_sequences.md R90); with none left in the sequence the caller acts (assumption 6).
Calls return and transactions do not overlap in time (DEDUCED, assumptions 18 and 19). -/
def step (s : State) : Host.Outcome State Fault Refusal :=
  match fetch (worldMove s) with
  | some (w, s') => runWord w s'
  | none => .next (callerAct (worldMove s))

/-- The state whose next operation word is the low four bits of `w`: the word stands first in the caller's
sequence, in the place of the word that stood there (assumptions 4 and 20). -/
def State.withFetchWord (s : State) (_nbits w : Nat) : State :=
  { s with seq := opWordOf w :: s.seq.tail }

end Sys2Proof.Machine
end

