-- ==== Sys2Proof/Machine/Sequences.lean ====
section
/-! DEFINITION. The two transactions: the pseudo-operations `RDSYNC` and `WRHOST` as the words the caller issues, and
as functions of the answers (spec/44_sequences.md). They have no `OP4` number of their own (spec/30_encoding.md R58). -/

namespace Sys2Proof.Machine

/-- The expansion of `RDSYNC` (spec/44_sequences.md R91). -/
def rdsyncOps : List Instr := [.rdblk, .decode, .chkosc, .tocal, .chkcal, .hpush]

/-- The expansion of `WRHOST` (spec/44_sequences.md R92). -/
def wrhostOps : List Instr := [.hget, .fromcal, .encode, .wrblk]

/-- The words the caller issues for a list of operations (spec/30_encoding.md R58). -/
def opWords (is : List Instr) : List OpWord := is.map encode

/-- What `RDSYNC` ends in, as one function of the port's answer: the timestamp the host receives, or the error
(spec/44_sequences.md R91). -/
def rdsyncResult (p : Params) (a : ReadAnswer) : Except SyncError Int :=
  match answerBlock a with
  | none => .error .transportError
  | some r =>
    if oscStopped (decodeBlock r) then .error .clockHalted
    else if calendarOk p (toCal (decodeBlock r)) then
      match timestamp (toCal (decodeBlock r)) with
      | some t => .ok t
      | none => .error .invalidCalendar
    else .error .invalidCalendar

/-- The block `WRHOST` writes for a host record, or the error that stops it before the write
(spec/44_sequences.md R92). -/
def wrhostBlock (h : Calendar) : Except SyncError RawBlock :=
  if h.valid then .ok (encodeBlock (fromCal h)) else .error .hostClockInvalid

/-- What `WRHOST` ends in: the block the device was given, or the error (spec/44_sequences.md R92). -/
def wrhostResult (h : Calendar) (okW : Bool) : Except SyncError RawBlock :=
  match wrhostBlock h with
  | .error e => .error e
  | .ok r => if okW then .ok r else .error .transportError

end Sys2Proof.Machine
end

