-- ==== Sys2Proof/Safety.lean ====
section
/-! DEFINITION. What counts as a safe state and a safe run, in the terms the claims use. -/

namespace Sys2Proof.Safety

open Sys2Proof.Machine

/-- The `require` clause of an operation holds (spec/10_state.md R27; with `FROMCAL_OOR = refuse` also the ranges of
spec/42_calendar.md R78). -/
def accepts (s : State) : Instr → Bool
  | .rdblk => true
  | .decode => s.rawW
  | .chkosc => s.fW
  | .tocal => s.fW
  | .chkcal => s.cW
  | .hpush => s.cW && s.cValid
  | .hget => true
  | .fromcal => s.cW && (decide (s.params.fromcalOor = .truncate) || (s.c.map calInRange).getD false)
  | .encode => s.fW
  | .wrblk => s.rawW

/-- No register group holds a value (spec/10_state.md R16). -/
def groupsClear (s : State) : Bool := !s.rawW && !s.fW && !s.cW

/-- The block stands as reset leaves it: tags, `ST` and `ERR` all 0 (spec/10_state.md R25). -/
def blockClear (s : State) : Bool := groupsClear s && !s.halted && !s.calOk && decide (s.err = none)

/-- What every step keeps: the device's registers are in canonical form and each of the seven holds a value
(spec/10_state.md R19); an error in `ERR` means that no group holds a
value (spec/60_exceptions.md R100); and `ST.halted` is 1 exactly when the error is ClockHalted (R97). -/
structure Inv (s : State) : Prop where
  devWf : Memory.wf s.dev
  devHeld : ∀ k, k < Config.blockLen → (Memory.read s.dev (Config.blockAddr.toNat + k)).isSome = true
  errClear : s.err ≠ none → groupsClear s = true
  haltedIff : s.halted = true ↔ s.err = some .clockHalted

/-- The two states agree on everything outside the block's own state: the device, the host clock, the parameters, the
caller and the environment (spec/10_state.md R9). -/
def sameOutside (s t : State) : Prop :=
  s.dev = t.dev ∧ s.hostTime = t.hostTime ∧ s.params = t.params ∧ s.seq = t.seq ∧ s.queue = t.queue ∧
  s.reads = t.reads ∧ s.writes = t.writes ∧ s.hosts = t.hosts ∧ s.moves = t.moves ∧ s.draws = t.draws ∧
  s.calls = t.calls

/-- The call has one of the block's own shapes: seven bytes at 0x02, or a host call (spec/20_memory.md R33). -/
def allowedCall : PortCall → Bool
  | .memRead a n => decide (a = Config.blockAddr ∧ n = Config.blockLen)
  | .memWrite a b => decide (a = Config.blockAddr ∧ b.length = Config.blockLen)
  | .hostGet => true
  | .hostSet _ => true

/-- A premise a claim may make about the device, which the spec does not promise (spec/20_memory.md R41): the answer
succeeds and reports what the device holds. -/
def reportsDevice (m : Memory) (a : ReadAnswer) : Prop :=
  a.ok = true ∧ a.got = Config.blockLen ∧
    ∀ k, (h : k < a.bytes.length) → Memory.read m (Config.blockAddr.toNat + k) = some a.bytes[k]

end Sys2Proof.Safety
end

