-- ==== Sys2Proof/Certificates/Slice0/Obligations.lean ====
section
/-! DEFINITION. The statements about the machine. "Derived" marks a statement that rests on a clause the spec marks as its
own decision or inference, or on a choice of the model; its docstring names the place. -/

open Sys2Proof Sys2Proof.Machine Sys2Proof.Safety

/-! ### The operation select -/

/-- The ten numbers of spec/30_encoding.md section 2 select the ten operations. Derived: the numbers are the spec's own
choice (spec/92_eei_decisions.md D2). -/
def Obligations.OperationNumbersDecode : Prop :=
  decode 0b0001#4 = .ok .rdblk ∧ decode 0b0010#4 = .ok .decode ∧ decode 0b0011#4 = .ok .chkosc ∧
  decode 0b0100#4 = .ok .tocal ∧ decode 0b0101#4 = .ok .chkcal ∧ decode 0b0110#4 = .ok .hpush ∧
  decode 0b1000#4 = .ok .hget ∧ decode 0b1001#4 = .ok .fromcal ∧ decode 0b1010#4 = .ok .encode ∧
  decode 0b1011#4 = .ok .wrblk

/-- Decoder and encoder agree in both directions: a word selects an operation exactly when it is that operation's
number. Derived (spec/92_eei_decisions.md D2). -/
def Obligations.DecodeEncodeAgree : Prop :=
  ∀ (i : Instr) (w : OpWord), i.wellFormed = true → (decode w = .ok i ↔ encode i = w)

/-- A reserved number is refused whatever the state. Derived: the spec's own choice (spec/92_eei_decisions.md D23). -/
def Obligations.ReservedNumbersRefused : Prop :=
  ∀ (s : State) (w : OpWord) (ws : List OpWord), s.seq = w :: ws →
    w = 0x0#4 ∨ w = 0x7#4 ∨ w = 0xC#4 ∨ w = 0xD#4 ∨ w = 0xE#4 ∨ w = 0xF#4 →
    step s = .refused (.reservedNumber w)

/-- When the next word of the caller's sequence selects an operation, the step is that operation, run after the device
and the host clock have changed on their own and the word has left the sequence. The model's choice (assumptions 4
and 10). -/
def Obligations.StepRunsDecodedOperation : Prop :=
  ∀ (s : State) (w : OpWord) (ws : List OpWord) (i : Instr), s.seq = w :: ws → decode w = .ok i →
    step s = exec i { worldMove s with seq := ws }

/-- With no operation left the block waits, begins the caller's next sequence, or is reset; none of these is refused.
The model's choice (assumption 6). -/
def Obligations.CallerActsBetweenSequences : Prop :=
  ∀ s : State, s.seq = [] →
    (s.queue = [] → step s = .next (worldMove s)) ∧
    (∀ ops q, s.queue = .run ops :: q → step s = .next { worldMove s with seq := ops, queue := q }) ∧
    (∀ q, s.queue = .reset :: q → ∃ t, step s = .next t ∧ blockClear t = true ∧ t.seq = [] ∧ t.queue = q ∧
      t.dev = (worldMove s).dev ∧ t.hostTime = (worldMove s).hostTime)

/-! ### Reset and transactions -/

/-- Reset leaves the tags, both flags and `ERR` at 0, and touches neither the device nor the host. Derived: the values
are the spec's own choice (spec/92_eei_decisions.md D17). That the parameters stand in the state at their defaults
(spec/00_scope.md section 3) is the model's choice (assumption 15). -/
def Obligations.ResetLeavesBlockClear : Prop :=
  State.reset.rawW = false ∧ State.reset.fW = false ∧ State.reset.cW = false ∧
  State.reset.halted = false ∧ State.reset.calOk = false ∧ State.reset.errCode = 0#3 ∧
  State.reset.params = Params.default ∧
  ∀ s : State, blockClear (clearBlock s) = true ∧ sameOutside (clearBlock s) s

/-- While no group holds a value, the two operations that begin a transaction are the only ones not refused. Derived
(spec/70_reset_and_hazards.md section 1, an inference from R25 and R27). -/
def Obligations.OnlyTransactionStartersRunUnwritten : Prop :=
  ∀ (s : State) (i : Instr), groupsClear s = true →
    ((∃ t, exec i s = .next t) ↔ i = .rdblk ∨ i = .hget)

/-- An operation completes exactly when its `require` clause holds, and is refused otherwise; it never faults. With
`FROMCAL_OOR = refuse` the record must also be inside the ranges for `FROMCAL` to complete. Derived (spec/10_state.md
section 12, the table of `require` clauses; spec/42_calendar.md FROMCAL for the ranges; spec/92_eei_decisions.md D10,
D14 and D21). -/
def Obligations.CompletesExactlyWhenRequired : Prop :=
  ∀ (i : Instr) (s : State),
    (accepts s i = true → ∃ t, exec i s = .next t) ∧
    (accepts s i = false → ∃ g, exec i s = .refused g)

/-- An operation that begins a transaction sees nothing an earlier one left in the block. Derived
(spec/92_eei_decisions.md D14). -/
def Obligations.TransactionForgetsBlock : Prop :=
  ∀ (s s' : State), sameOutside s s' → exec .rdblk s = exec .rdblk s' ∧ exec .hget s = exec .hget s'

/-! ### The codec -/

/-- `DECODE`, every bit range in numbers: byte `k` of `RAW` is cut at the positions of the register map. Nothing but
`F` changes; with `RAW.w = 0` it is refused. -/
def Obligations.DecodeExtractsFields : Prop :=
  (∀ (s : State) (r : RawBlock), s.raw = some r → ∃ f : Fields,
    exec .decode s = .next { s with f := some f } ∧
    f.vl.toNat = r.b0.toNat / 128 ∧ f.secTens.toNat = r.b0.toNat / 16 % 8 ∧ f.secUnits.toNat = r.b0.toNat % 16 ∧
    f.minTens.toNat = r.b1.toNat / 16 % 8 ∧ f.minUnits.toNat = r.b1.toNat % 16 ∧
    f.hourTens.toNat = r.b2.toNat / 16 % 4 ∧ f.hourUnits.toNat = r.b2.toNat % 16 ∧
    f.weekday.toNat = r.b3.toNat % 8 ∧
    f.dayTens.toNat = r.b4.toNat / 16 % 4 ∧ f.dayUnits.toNat = r.b4.toNat % 16 ∧
    f.century.toNat = r.b5.toNat / 128 ∧ f.monthTens.toNat = r.b5.toNat / 16 % 2 ∧
    f.monthUnits.toNat = r.b5.toNat % 16 ∧
    f.yearTens.toNat = r.b6.toNat / 16 ∧ f.yearUnits.toNat = r.b6.toNat % 16) ∧
  (∀ s : State, s.raw = none → exec .decode s = .refused (.unwritten .raw))

/-- `ENCODE`, in the arithmetic form of spec/40_codec.md; every unused bit is 0. Nothing but `RAW` changes; with
`F.w = 0` it is refused. Derived: the zeros are the spec's own choice (spec/92_eei_decisions.md D7). -/
def Obligations.EncodePacksFields : Prop :=
  (∀ (s : State) (f : Fields), s.f = some f → ∃ r : RawBlock,
    exec .encode s = .next { s with raw := some r } ∧
    r.b0.toNat = f.vl.toNat * 128 + f.secTens.toNat * 16 + f.secUnits.toNat ∧
    r.b1.toNat = f.minTens.toNat * 16 + f.minUnits.toNat ∧
    r.b2.toNat = f.hourTens.toNat * 16 + f.hourUnits.toNat ∧
    r.b3.toNat = f.weekday.toNat ∧
    r.b4.toNat = f.dayTens.toNat * 16 + f.dayUnits.toNat ∧
    r.b5.toNat = f.century.toNat * 128 + f.monthTens.toNat * 16 + f.monthUnits.toNat ∧
    r.b6.toNat = f.yearTens.toNat * 16 + f.yearUnits.toNat) ∧
  (∀ s : State, s.f = none → exec .encode s = .refused (.unwritten .f))

/-- Round trip on the structured view, for every value of every sub-field. Derived (spec/40_codec.md, laws). -/
def Obligations.DecodeUndoesEncode : Prop :=
  ∀ f : Fields, decodeBlock (encodeBlock f) = f

/-- Round trip on the bytes: each byte loses its unused bits and nothing else, and so survives exactly when they were
0. Derived (spec/40_codec.md, laws; spec/92_eei_decisions.md D7). -/
def Obligations.EncodeOfDecodeMasksUnused : Prop :=
  ∀ r : RawBlock, encodeBlock (decodeBlock r) = andBlock r usedBits ∧
    (encodeBlock (decodeBlock r) = r ↔ andBlock r usedBits = r)

/-- Two blocks decode to the same fields exactly when they agree on the used bits. Derived (spec/30_encoding.md
section 3; spec/92_eei_decisions.md D7). -/
def Obligations.DecodeIgnoresExactlyUnusedBits : Prop :=
  ∀ r r' : RawBlock, decodeBlock r = decodeBlock r' ↔ andBlock r usedBits = andBlock r' usedBits

/-! ### The validity detector -/

/-- `CHKOSC`: with VL set it sets `ST.halted`, raises ClockHalted and clears the tags; with VL clear it clears
`ST.halted` and changes nothing else. Derived: that it raises is the spec's own framing
(spec/92_eei_decisions.md D12); the end of the caller's sequence is assumption 5. -/
def Obligations.ChkoscReportsOscillator : Prop :=
  (∀ (s : State) (f : Fields), s.f = some f → f.vl = 1#1 →
    exec .chkosc s = .next { s with halted := true, err := some .clockHalted, raw := none, f := none, c := none, seq := [] }) ∧
  (∀ (s : State) (f : Fields), s.f = some f → f.vl = 0#1 → exec .chkosc s = .next { s with halted := false }) ∧
  (∀ s : State, s.f = none → exec .chkosc s = .refused (.unwritten .f))

/-- The oscillator answer depends on bit 7 of block byte 0 alone. Derived (spec/41_validity.md section CHKCAL, last
rule, an inference from R59 and R65). -/
def Obligations.OscillatorAnswerIsOneBit : Prop :=
  ∀ r : RawBlock, oscStopped (decodeBlock r) = true ↔ 128 ≤ r.b0.toNat

/-- Leap years and month lengths. Derived: the calendar rules are general knowledge the spec supplies
(spec/92_eei_decisions.md D6). -/
def Obligations.MonthLengthsFollowLeapRule : Prop :=
  ∀ y : Nat, (isLeap y = true ↔ (4 ∣ y ∧ ¬ 100 ∣ y) ∨ 400 ∣ y) ∧
    (List.range' 1 12).map (daysInMonth y) =
      [some 31, some (if isLeap y then 29 else 28), some 31, some 30, some 31, some 30,
       some 31, some 31, some 30, some 31, some 30, some 31] ∧
    ∀ m, m = 0 ∨ 12 < m → daysInMonth y m = none

/-- The day count is the number of days from 1970-01-01: it is 0 there, a day later it is one more, and it goes on by
one over the end of every month and of every year. Derived (spec/92_eei_decisions.md D6). -/
def Obligations.DayCountFollowsCalendar : Prop :=
  daysFromEpoch 1970 1 1 = some 0 ∧
  (∀ y m d x, daysFromEpoch y m d = some x → daysFromEpoch y m (d + 1) = some (x + 1)) ∧
  (∀ y m n x, m ≤ 11 → daysInMonth y m = some n → daysFromEpoch y m n = some x →
    daysFromEpoch y (m + 1) 1 = some (x + 1)) ∧
  (∀ y x, daysFromEpoch y 12 31 = some x → daysFromEpoch (y + 1) 1 1 = some (x + 1))

/-- The calendar predicate, clause by clause; in particular a record that passes has a timestamp. Derived
(spec/92_eei_decisions.md D5). -/
def Obligations.CalendarPredicateClauses : Prop :=
  ∀ (p : Params) (c : Calendar), calendarOk p c = true ↔
    (c.second.toNat ≤ 59 ∧ c.minute.toNat ≤ 59 ∧ c.hour.toNat ≤ 23 ∧ 1 ≤ c.month.toNat ∧ c.month.toNat ≤ 12 ∧
     1900 ≤ c.year.toNat ∧ c.year.toNat ≤ 2099 ∧
     (∃ n, daysInMonth c.year.toNat c.month.toNat = some n ∧ 1 ≤ c.day.toNat ∧ c.day.toNat ≤ n) ∧
     ∃ t, timestamp c = some t ∧ p.tsMin.toInt ≤ t ∧ t ≤ p.tsMax.toInt)

/-- The timestamp is the day count times 86400 with hours, minutes and seconds in their places, and it has a value
exactly for the months 1 to 12; every record that passes has it between the edges of the window, and both edges are
reached. Derived (spec/92_eei_decisions.md D5 and D6). -/
def Obligations.WindowTimestampEdges : Prop :=
  (∀ (c : Calendar) (d : Int), daysFromEpoch c.year.toNat c.month.toNat c.day.toNat = some d →
    timestamp c = some (d * 86400 + c.hour.toNat * 3600 + c.minute.toNat * 60 + c.second.toNat)) ∧
  (∀ c : Calendar, (timestamp c).isSome = true ↔ 1 ≤ c.month.toNat ∧ c.month.toNat ≤ 12) ∧
  (∀ (p : Params) (c : Calendar) (t : Int), calendarOk p c = true → timestamp c = some t →
    -2208988800 ≤ t ∧ t ≤ 4102444799) ∧
  timestamp ⟨0, 0, 0, 0, 1, 1, 1900, none⟩ = some (-2208988800) ∧
  timestamp ⟨59, 59, 23, 6, 31, 12, 2099, none⟩ = some 4102444799

/-- With the default bounds the overflow clause turns no date of the window away. Derived (spec/92_eei_decisions.md
D5). -/
def Obligations.DefaultBoundsRejectNoDate : Prop :=
  ∀ c : Calendar, c.second.toNat ≤ 59 → c.minute.toNat ≤ 59 → c.hour.toNat ≤ 23 →
    1900 ≤ c.year.toNat → c.year.toNat ≤ 2099 →
    (∃ n, daysInMonth c.year.toNat c.month.toNat = some n ∧ 1 ≤ c.day.toNat ∧ c.day.toNat ≤ n) →
    calendarOk Params.default c = true

/-- The rejections the document lists, whatever the other components hold. Derived (spec/41_validity.md section CHKCAL,
an inference from R67 and R70). -/
def Obligations.RequiredRejections : Prop :=
  ∀ (p : Params) (c : Calendar),
    c.hour = 24#8 ∨ c.minute = 60#8 ∨ c.second = 60#8 ∨ c.month = 0#8 ∨ c.month = 13#8 ∨ c.day = 0#8 ∨ c.day = 32#8 ∨
      (c.day = 30#8 ∧ c.month = 2#8) → calendarOk p c = false

/-- The check reads six components: neither the weekday nor an earlier timestamp changes its answer or its timestamp.
Derived (spec/92_eei_decisions.md D8). -/
def Obligations.CalendarCheckIgnoresWeekday : Prop :=
  ∀ (p : Params) (c : Calendar) (w : BitVec 8) (x : Option Timestamp),
    calendarOk p { c with weekday := w, ts := x } = calendarOk p c ∧
    timestamp { c with weekday := w, ts := x } = timestamp c

/-- `CHKCAL` on a record that passes: `ST.cal_ok = 1`, the record takes its timestamp, which 64 bits hold without
overflow, and `C.valid = 1`; nothing else changes. Derived: that this operation derives the timestamp is the spec's own
choice (spec/92_eei_decisions.md D11). -/
def Obligations.ChkcalCompletesRecord : Prop :=
  (∀ (s : State) (c : Calendar), s.c = some c → calendarOk s.params c = true → ∃ t : Int,
    timestamp c = some t ∧ (BitVec.ofInt 64 t).toInt = t ∧
    exec .chkcal s = .next { s with calOk := true, c := some { c with ts := some (BitVec.ofInt 64 t) } }) ∧
  (∀ s : State, s.c = none → exec .chkcal s = .refused (.unwritten .c))

/-- `CHKCAL` on a record that fails: InvalidCalendar, code 3, is raised and `ST.cal_ok = 0`; no call is made, the host
keeps its time, and the record cannot be handed to it by a push that follows. Of the rest only the groups and the
caller's sequence may differ, which RaiseEntersError and SequenceEndsAtRaise settle. -/
def Obligations.ChkcalRaisesInvalidCalendar : Prop :=
  ∀ (s : State) (c : Calendar), s.c = some c → calendarOk s.params c = false → ∃ t : State,
    exec .chkcal s = .next t ∧ t.errCode = 3#3 ∧
    t = { s with calOk := false, err := some .invalidCalendar, raw := t.raw, f := t.f, c := t.c, seq := t.seq } ∧
    t.calls = s.calls ∧ t.hostTime = s.hostTime ∧ ∀ u, exec .hpush t ≠ .next u

/-! ### The conversions -/

/-- `TOCAL`: each component is the decimal value of its digits, whatever the digits, the year by the century formula;
the timestamp has no value and `C.valid = 0`. Nothing but `C` changes; with `F.w = 0` it is refused. -/
def Obligations.TocalComputesDecimals : Prop :=
  (∀ (s : State) (f : Fields), s.f = some f → ∃ c : Calendar,
    exec .tocal s = .next { s with c := some c } ∧
    c.second.toNat = f.secTens.toNat * 10 + f.secUnits.toNat ∧
    c.minute.toNat = f.minTens.toNat * 10 + f.minUnits.toNat ∧
    c.hour.toNat = f.hourTens.toNat * 10 + f.hourUnits.toNat ∧
    c.weekday.toNat = f.weekday.toNat ∧
    c.day.toNat = f.dayTens.toNat * 10 + f.dayUnits.toNat ∧
    c.month.toNat = f.monthTens.toNat * 10 + f.monthUnits.toNat ∧
    c.year.toNat = 1900 + 100 * f.century.toNat + f.yearTens.toNat * 10 + f.yearUnits.toNat ∧
    c.ts = none ∧ c.valid = false) ∧
  (∀ s : State, s.f = none → exec .tocal s = .refused (.unwritten .f))

/-- Bounds on what `TOCAL` can produce, whatever the digits: an upper bound for each component, and both for the year.
Derived (spec/42_calendar.md, laws). -/
def Obligations.TocalBounds : Prop :=
  ∀ f : Fields, (toCal f).second.toNat ≤ 85 ∧ (toCal f).minute.toNat ≤ 85 ∧ (toCal f).hour.toNat ≤ 45 ∧
    (toCal f).weekday.toNat ≤ 7 ∧ (toCal f).day.toNat ≤ 45 ∧ (toCal f).month.toNat ≤ 25 ∧
    1900 ≤ (toCal f).year.toNat ∧ (toCal f).year.toNat ≤ 2165

/-- `FROMCAL` with `FROMCAL_OOR = truncate`: units are the value modulo 10, tens the quotient cut to the field's width,
the century flag is `year ≥ 2000`, VL is 0. Nothing but `F` changes; with `C.w = 0` it is refused. Derived: the weekday
and the truncation are the spec's own choices (spec/92_eei_decisions.md D8 and D10). -/
def Obligations.FromcalSplitsDigits : Prop :=
  (∀ (s : State) (c : Calendar), s.c = some c → s.params.fromcalOor = .truncate → ∃ f : Fields,
    exec .fromcal s = .next { s with f := some f } ∧
    f.vl = 0#1 ∧
    f.secTens.toNat = c.second.toNat / 10 % 8 ∧ f.secUnits.toNat = c.second.toNat % 10 ∧
    f.minTens.toNat = c.minute.toNat / 10 % 8 ∧ f.minUnits.toNat = c.minute.toNat % 10 ∧
    f.hourTens.toNat = c.hour.toNat / 10 % 4 ∧ f.hourUnits.toNat = c.hour.toNat % 10 ∧
    f.weekday.toNat = c.weekday.toNat % 8 ∧
    f.dayTens.toNat = c.day.toNat / 10 % 4 ∧ f.dayUnits.toNat = c.day.toNat % 10 ∧
    (f.century = 1#1 ↔ 2000 ≤ c.year.toNat) ∧
    f.monthTens.toNat = c.month.toNat / 10 % 2 ∧ f.monthUnits.toNat = c.month.toNat % 10 ∧
    f.yearTens.toNat = c.year.toNat % 100 / 10 ∧ f.yearUnits.toNat = c.year.toNat % 100 % 10) ∧
  (∀ s : State, s.c = none → exec .fromcal s = .refused (.unwritten .c))

/-- `FROMCAL` with `FROMCAL_OOR = refuse`: inside the ranges it has the same effect, outside them it is refused.
Derived (spec/92_eei_decisions.md D10). -/
def Obligations.FromcalRefusePolicy : Prop :=
  ∀ (s : State) (c : Calendar), s.c = some c → s.params.fromcalOor = .refuse →
    (1900 ≤ c.year.toNat ∧ c.year.toNat ≤ 2099 ∧ c.second.toNat ≤ 59 ∧ c.minute.toNat ≤ 59 ∧ c.hour.toNat ≤ 23 ∧
       1 ≤ c.day.toNat ∧ c.day.toNat ≤ 31 ∧ 1 ≤ c.month.toNat ∧ c.month.toNat ≤ 12 ∧ c.weekday.toNat ≤ 7 →
      exec .fromcal s = .next { s with f := some (fromCal c) }) ∧
    (¬ (1900 ≤ c.year.toNat ∧ c.year.toNat ≤ 2099 ∧ c.second.toNat ≤ 59 ∧ c.minute.toNat ≤ 59 ∧ c.hour.toNat ≤ 23 ∧
       1 ≤ c.day.toNat ∧ c.day.toNat ≤ 31 ∧ 1 ≤ c.month.toNat ∧ c.month.toNat ≤ 12 ∧ c.weekday.toNat ≤ 7) →
      exec .fromcal s = .refused .outOfRange)

/-- Round trip on the calendar, through the digits and through the register block. Derived (spec/42_calendar.md,
laws). -/
def Obligations.CalendarRoundTrip : Prop :=
  ∀ c : Calendar, calInRange c = true →
    toCal (fromCal c) = { c with ts := none } ∧
    toCal (decodeBlock (encodeBlock (fromCal c))) = { c with ts := none }

/-- Round trip on well-formed fields: everything but VL, which becomes 0. Derived (spec/42_calendar.md, laws). -/
def Obligations.WellFormedFieldsRoundTrip : Prop :=
  ∀ f : Fields, bcdWellFormed f = true → fromCal (toCal f) = { f with vl := 0#1 }

/-- A year outside the window is read back as another year, with no error. Derived (spec/92_eei_decisions.md D10). -/
def Obligations.YearsOutsideWindowAlias : Prop :=
  ∀ c : Calendar,
    (c.year.toNat < 2000 → (toCal (fromCal c)).year.toNat = 1900 + c.year.toNat % 100) ∧
    (2000 ≤ c.year.toNat → (toCal (fromCal c)).year.toNat = 2000 + c.year.toNat % 100)

/-- A component outside its calendar range keeps its units and the low bits of its tens digit; the weekday keeps its
low three bits. Derived (spec/92_eei_decisions.md D8 and D10). -/
def Obligations.ComponentsOutsideRangeTruncate : Prop :=
  ∀ c : Calendar,
    (toCal (fromCal c)).second.toNat = c.second.toNat / 10 % 8 * 10 + c.second.toNat % 10 ∧
    (toCal (fromCal c)).minute.toNat = c.minute.toNat / 10 % 8 * 10 + c.minute.toNat % 10 ∧
    (toCal (fromCal c)).hour.toNat = c.hour.toNat / 10 % 4 * 10 + c.hour.toNat % 10 ∧
    (toCal (fromCal c)).weekday.toNat = c.weekday.toNat % 8 ∧
    (toCal (fromCal c)).day.toNat = c.day.toNat / 10 % 4 * 10 + c.day.toNat % 10 ∧
    (toCal (fromCal c)).month.toNat = c.month.toNat / 10 % 2 * 10 + c.month.toNat % 10

/-! ### The two ports -/

/-- `RDBLK`: the transient state is cleared and one `MemRead(0x02, 7)` is made. When the answer is a success with seven
bytes they stand in `RAW` in order; else TransportError is raised and no group holds a value. Everything else is
unchanged but for the lists of inputs and the rest of the sequence, which PortAnswersAreTaken and SequenceEndsAtRaise
settle. The call is read off the model's trace (assumption 14). -/
def Obligations.RdblkLoadsBlock : Prop :=
  ∀ s : State,
    ((readAnswer s).ok = true ∧ (readAnswer s).got = 7 → ∃ (r : RawBlock) (t : State),
      [r.b0, r.b1, r.b2, r.b3, r.b4, r.b5, r.b6] = (readAnswer s).bytes ∧
      exec .rdblk s = .next t ∧
      t = { s with
        raw := some r, f := none, c := none, halted := false, calOk := false, err := none,
        reads := t.reads, draws := t.draws, calls := .memRead 0x02#8 7 :: s.calls }) ∧
    (¬ ((readAnswer s).ok = true ∧ (readAnswer s).got = 7) → ∃ t : State,
      exec .rdblk s = .next t ∧
      t = { s with
        raw := none, f := none, c := none, halted := false, calOk := false, err := some .transportError, seq := t.seq,
        reads := t.reads, draws := t.draws, calls := .memRead 0x02#8 7 :: s.calls })

/-- `WRBLK` with an answer of success: one `MemWrite(0x02, 7, RAW)` is made, the block does not change, and the device
holds block byte `k` at address `0x02 + k`, every other address as before. Bit 7 of the seconds byte holds as written
where it is 0 or VL was set already; whether a 1 sets a clear VL is left open (assumption 13; spec/10_state.md R20 does
not say). The answer taken from its list, the counter and the trace of calls are the model's (assumptions 7, 9 and 14).
Derived (spec/43_ports.md WRBLK; spec/20_memory.md section 5, an inference). -/
def Obligations.WrblkStoresBlock : Prop :=
  (∀ (s : State) (r : RawBlock), s.raw = some r → writeAnswer s = true → ∃ t : State,
    exec .wrblk s = .next t ∧
    t = { s with
      dev := t.dev, writes := s.writes.tail, draws := s.draws + 1,
      calls := .memWrite 0x02#8 [r.b0, r.b1, r.b2, r.b3, r.b4, r.b5, r.b6] :: s.calls } ∧
    (∀ a, a < Config.blockAddr.toNat ∨ Config.blockAddr.toNat + 7 ≤ a → Memory.read t.dev a = Memory.read s.dev a) ∧
    Memory.read t.dev (Config.blockAddr.toNat + 1) = some r.b1 ∧ Memory.read t.dev (Config.blockAddr.toNat + 2) = some r.b2 ∧
    Memory.read t.dev (Config.blockAddr.toNat + 3) = some r.b3 ∧ Memory.read t.dev (Config.blockAddr.toNat + 4) = some r.b4 ∧
    Memory.read t.dev (Config.blockAddr.toNat + 5) = some r.b5 ∧ Memory.read t.dev (Config.blockAddr.toNat + 6) = some r.b6 ∧
    ∃ b : Byte, Memory.read t.dev Config.blockAddr.toNat = some b ∧ b.toNat % 128 = r.b0.toNat % 128 ∧
      (r.b0.toNat < 128 ∨ deviceVl s.dev = some true → b = r.b0)) ∧
  (∀ s : State, s.raw = none → exec .wrblk s = .refused (.unwritten .raw))

/-- `WRBLK` with an answer of failure: TransportError is raised, the block loses its values, and of the device only the
seven registers may differ (nothing is said of what they hold). The end of the sequence is assumption 5; the answer taken
from its list, the counter and the trace of calls are the model's (assumptions 7, 9 and 14). Derived
(spec/92_eei_decisions.md D12, D14 and D18). -/
def Obligations.WrblkFailureRaises : Prop :=
  ∀ (s : State) (r : RawBlock), s.raw = some r → writeAnswer s = false → ∃ t : State,
    exec .wrblk s = .next t ∧
    t = { s with
      dev := t.dev, err := some .transportError, raw := none, f := none, c := none, seq := [],
      writes := s.writes.tail, draws := s.draws + 1,
      calls := .memWrite 0x02#8 [r.b0, r.b1, r.b2, r.b3, r.b4, r.b5, r.b6] :: s.calls } ∧
    ∀ a, a < Config.blockAddr.toNat ∨ Config.blockAddr.toNat + 7 ≤ a → Memory.read t.dev a = Memory.read s.dev a

/-- `HGET`: the transient state is cleared and one `HostGet()` is made. A record with its validity flag set goes to `C`
whole, with no range check; else HostClockInvalid is raised and no group holds a value. Everything else, the device
with it, is unchanged but for the lists of inputs and the rest of the sequence, which PortAnswersAreTaken and
SequenceEndsAtRaise settle. The call is read off the model's trace (assumption 14). -/
def Obligations.HgetTakesHostTime : Prop :=
  ∀ s : State,
    ((hostAnswer s).valid = true → ∃ t : State, exec .hget s = .next t ∧
      t = { s with
        raw := none, f := none, c := some (hostAnswer s), halted := false, calOk := false, err := none,
        hosts := t.hosts, draws := t.draws, calls := .hostGet :: s.calls }) ∧
    ((hostAnswer s).valid = false → ∃ t : State, exec .hget s = .next t ∧
      t = { s with
        raw := none, f := none, c := none, halted := false, calOk := false, err := some .hostClockInvalid, seq := t.seq,
        hosts := t.hosts, draws := t.draws, calls := .hostGet :: s.calls })

/-- Each call takes the next answer of its own list of inputs, whatever it is, and the answers after it wait for the
next call. The model's choice (assumption 7); what an answer past the end of a list is, is left open. -/
def Obligations.PortAnswersAreTaken : Prop :=
  ∀ s : State,
    (∀ a as, s.reads = a :: as → readAnswer s = a ∧ ∃ t, exec .rdblk s = .next t ∧ t.reads = as) ∧
    (∀ h hs, s.hosts = h :: hs → hostAnswer s = h ∧ ∃ t, exec .hget s = .next t ∧ t.hosts = hs) ∧
    (∀ b bs, s.writes = b :: bs → s.rawW = true → writeAnswer s = b ∧ ∃ t, exec .wrblk s = .next t ∧ t.writes = bs)

/-- `HPUSH`: the host receives `C.ts` and takes it as its time; nothing of the block changes. With `C.w = 0` or
`C.valid = 0` it is refused. Derived: the second requirement is the spec's own choice (spec/92_eei_decisions.md D21). -/
def Obligations.HpushSendsTimestamp : Prop :=
  (∀ (s : State) (c : Calendar) (t : Timestamp), s.c = some c → c.ts = some t →
    exec .hpush s = .next { s with hostTime := some t, calls := .hostSet t :: s.calls }) ∧
  (∀ (s : State) (c : Calendar), s.c = some c → c.valid = false → exec .hpush s = .refused .notValid) ∧
  (∀ s : State, s.c = none → exec .hpush s = .refused (.unwritten .c))

/-- The push does not carry the weekday: `C.weekday` changes nothing the host receives, and two blocks that differ only
in the weekday byte push the same timestamp. -/
def Obligations.PushIgnoresWeekday : Prop :=
  (∀ (s t : State) (c : Calendar) (w : BitVec 8), s.c = some c → exec .hpush s = .next t →
    exec .hpush { s with c := some { c with weekday := w } } = .next { t with c := some { c with weekday := w } }) ∧
  (∀ (p : Params) (r : RawBlock) (b : Byte),
    rdsyncResult p ⟨true, blockBytes { r with b3 := b }⟩ = rdsyncResult p ⟨true, blockBytes r⟩)

/-- The block makes at most one port call in an operation, and only in the shapes the spec gives: seven bytes at 0x02
read by `RDBLK` or written by `WRBLK`, `HostGet` by `HGET`, `HostSet` by `HPUSH`. Derived (spec/20_memory.md section 4;
spec/10_state.md section 12). -/
def Obligations.PortCallsHaveOneShape : Prop :=
  ∀ (i : Instr) (s t : State), exec i s = .next t →
    t.calls = s.calls ∨ ∃ k : PortCall, t.calls = k :: s.calls ∧ allowedCall k = true ∧
      (match k with
       | .memRead _ _ => i = .rdblk
       | .memWrite _ _ => i = .wrblk
       | .hostGet => i = .hget
       | .hostSet _ => i = .hpush)

/-- The host only ever receives the timestamp of a record that is marked valid. Derived (spec/92_eei_decisions.md D21). -/
def Obligations.HostReceivesOnlyValidTimestamps : Prop :=
  ∀ (i : Instr) (s t : State) (x : Timestamp), exec i s = .next t → t.calls = .hostSet x :: s.calls →
    ∃ c : Calendar, s.c = some c ∧ c.valid = true ∧ c.ts = some x ∧ t.hostTime = some x

/-- No operation but `WRBLK` changes a device register, none but `HPUSH` the host's time, and the parameters, the
caller's plans and the device's own moves are no operation's to change. Derived (spec/10_state.md section 12); the clauses
on the model's own fields rest on assumption 4 (`queue`), 7 (`reads`, `writes`, `hosts`), 9 (`draws`), 10 (`moves`) and
15 (`params`). -/
def Obligations.OperationsFrameTheOutside : Prop :=
  ∀ (i : Instr) (s t : State), exec i s = .next t →
    (i ≠ .wrblk → ∀ a, Memory.read t.dev a = Memory.read s.dev a) ∧
    (i ≠ .hpush → t.hostTime = s.hostTime) ∧
    (i ≠ .rdblk → t.reads = s.reads) ∧ (i ≠ .wrblk → t.writes = s.writes) ∧ (i ≠ .hget → t.hosts = s.hosts) ∧
    (i ≠ .rdblk → i ≠ .wrblk → i ≠ .hget → t.draws = s.draws) ∧
    t.params = s.params ∧ t.queue = s.queue ∧ t.moves = s.moves

/-- `RAW` is written by `RDBLK` and `ENCODE` only, `F` by `DECODE` and `FROMCAL` only, `C` by `TOCAL`, `HGET` and
`CHKCAL` only; by every other operation a group is kept or cleared. Derived (spec/10_state.md section 12). -/
def Obligations.GroupsWrittenByTheirOperations : Prop :=
  ∀ (i : Instr) (s t : State), exec i s = .next t →
    (i ≠ .rdblk → i ≠ .encode → t.raw = s.raw ∨ t.raw = none) ∧
    (i ≠ .decode → i ≠ .fromcal → t.f = s.f ∨ t.f = none) ∧
    (i ≠ .tocal → i ≠ .hget → i ≠ .chkcal → t.c = s.c ∨ t.c = none)

/-- The flags are written by their own check, and cleared where a transaction begins. Derived (spec/92_eei_decisions.md
D1). -/
def Obligations.FlagsWrittenByTheirChecks : Prop :=
  ∀ (i : Instr) (s t : State), exec i s = .next t →
    (i = .rdblk ∨ i = .hget → t.halted = false ∧ t.calOk = false) ∧
    (i = .chkosc → t.calOk = s.calOk ∧ ∃ f, s.f = some f ∧ (t.halted = true ↔ f.vl = 1#1)) ∧
    (i = .chkcal → t.halted = s.halted ∧ ∃ c, s.c = some c ∧ t.calOk = calendarOk s.params c) ∧
    (i ≠ .rdblk → i ≠ .hget → i ≠ .chkosc → i ≠ .chkcal → t.halted = s.halted ∧ t.calOk = s.calOk)

/-! ### Errors -/

/-- Raising an error writes its code, clears the three tags, and changes nothing else of the block; the device, the
host and the ports are not touched, and the caller's sequence ends (assumption 5). Derived (spec/92_eei_decisions.md
D12 and D14). -/
def Obligations.RaiseEntersError : Prop :=
  ∀ (e : SyncError) (s : State),
    raise e s = { s with err := some e, raw := none, f := none, c := none, seq := [] } ∧
    groupsClear (raise e s) = true ∧ (raise e s).errCode = e.code ∧
    SyncError.transportError.code = 1#3 ∧ SyncError.clockHalted.code = 2#3 ∧
    SyncError.invalidCalendar.code = 3#3 ∧ SyncError.hostClockInvalid.code = 4#3

/-- Each error is raised by the operations the table names and by no other, a retry begun while an error stands
included, and `ERR` never reads 5, 6 or 7. Derived (spec/92_eei_decisions.md D12). -/
def Obligations.ErrorsRaisedByTheirOperations : Prop :=
  (∀ s : State, s.errCode ≠ 5#3 ∧ s.errCode ≠ 6#3 ∧ s.errCode ≠ 7#3) ∧
  ∀ (i : Instr) (s t : State), exec i s = .next t → s.err = none ∨ i = .rdblk ∨ i = .hget →
    (t.err = some .transportError → i = .rdblk ∨ i = .wrblk) ∧
    (t.err = some .clockHalted → i = .chkosc) ∧
    (t.err = some .invalidCalendar → i = .chkcal) ∧
    (t.err = some .hostClockInvalid → i = .hget)

/-- No error stops the block: nothing faults, and with any error standing `RDBLK` and `HGET` are accepted at once and
leave only an error of their own. -/
def Obligations.ErrorsAreNotFatal : Prop :=
  (∀ (i : Instr) (s : State) (x : Fault), exec i s ≠ .fault x) ∧ (∀ (s : State) (x : Fault), step s ≠ .fault x) ∧
  ∀ (s : State) (e : SyncError), s.err = some e →
    (∃ t, exec .rdblk s = .next t ∧ (t.err = none ∨ t.err = some .transportError)) ∧
    (∃ t, exec .hget s = .next t ∧ (t.err = none ∨ t.err = some .hostClockInvalid))

/-- An error cannot meet another: while one stands, every operation but the two that begin a transaction is refused for
want of its operand. Derived (spec/60_exceptions.md section 3, an inference); the premise is the invariant. -/
def Obligations.NoSecondErrorWhileOneStands : Prop :=
  ∀ (s : State) (e : SyncError) (i : Instr), Inv s → s.err = some e → i ≠ .rdblk → i ≠ .hget →
    ∃ g, exec i s = .refused (.unwritten g)

/-- A raise ends the caller's sequence, and an operation that does not raise leaves it as it was; `RDBLK` and `HGET`
begun while an error stands are no exception. Derived (spec/92_eei_decisions.md D13; assumption 5). -/
def Obligations.SequenceEndsAtRaise : Prop :=
  ∀ (i : Instr) (s t : State), exec i s = .next t → s.err = none ∨ i = .rdblk ∨ i = .hget →
    (t.err ≠ none → t.seq = [] ∧ groupsClear t = true) ∧ (t.err = none → t.seq = s.seq)

/-- The order of errors: a read that fails before a set VL, a set VL before an impossible date, and an invalid host
time before the write. Derived (spec/60_exceptions.md section 4, with the functions of spec/44_sequences.md). -/
def Obligations.ErrorPrecedence : Prop :=
  (∀ (p : Params) (a : ReadAnswer), a.ok = false ∨ a.got ≠ 7 → rdsyncResult p a = .error .transportError) ∧
  (∀ (p : Params) (a : ReadAnswer) (r : RawBlock), a.ok = true → a.bytes = blockBytes r → 128 ≤ r.b0.toNat →
    rdsyncResult p a = .error .clockHalted) ∧
  (∀ (h : Calendar) (okW : Bool), h.valid = false → wrhostResult h okW = .error .hostClockInvalid)

/-! ### Invariants -/

/-- The invariant holds after reset, whatever the device's registers hold then (assumption 11). Derived
(spec/92_eei_decisions.md D17). -/
def Obligations.ResetMeetsInvariant : Prop := Inv State.reset

/-- Every step keeps the invariant: the device's registers stay in canonical form and hold a value, an error leaves no group with a
value, and `ST.halted` is 1 exactly while the error is ClockHalted. Derived (spec/60_exceptions.md sections 1 to 3). -/
def Obligations.StepKeepsInvariant : Prop :=
  ∀ s t : State, Inv s → step s = .next t → Inv t

/-- No step changes the parameters of the machine (assumption 15), and the record of port calls only grows, by at most
one call a step, of an allowed shape. Derived (spec/00_scope.md section 3; spec/20_memory.md section 4). -/
def Obligations.StepKeepsParametersAndHistory : Prop :=
  ∀ s t : State, step s = .next t →
    t.params = s.params ∧ (t.calls = s.calls ∨ ∃ k, t.calls = k :: s.calls ∧ allowedCall k = true)

/-- VL is sticky: a set VL stays set over every step that does not write the block, a write with bit 7 clear clears it,
and one with bit 7 set keeps it. Derived (spec/10_state.md section 7; the device's own moves are assumption 10). -/
def Obligations.VlStaysSetUntilWritten : Prop :=
  (∀ s t : State, deviceVl s.dev = some true → step s = .next t →
    deviceVl t.dev = some true ∨ ∃ b, t.calls = .memWrite 0x02#8 b :: s.calls) ∧
  (∀ (s : State) (r : RawBlock), s.raw = some r → writeAnswer s = true → ∃ t, exec .wrblk s = .next t ∧
    (r.b0.toNat < 128 → deviceVl t.dev = some false) ∧
    (128 ≤ r.b0.toNat → deviceVl s.dev = some true → deviceVl t.dev = some true))

/-! ### The two transactions -/

/-- `RDSYNC`: running the six operations is the one function of the port's answer. On success the host receives the
timestamp and the device was only read; on an error the operation that raised it is the last one (SequenceEndsAtRaise
says that the rest is not issued), and the host receives nothing. The answer is the first of the model's list of inputs
(assumption 7), what was called is read off its trace (assumption 14). Derived (spec/44_sequences.md RDSYNC). -/
def Obligations.RdsyncIsItsFunction : Prop :=
  ∀ s : State, s.seq = opWords rdsyncOps →
    match rdsyncResult s.params (readAnswer (worldMove s)) with
    | .ok x => ∃ t, Host.Core.run Sys2Proof.core 6 s = .next t ∧ t.err = none ∧ t.halted = false ∧ t.calOk = true ∧
        t.seq = [] ∧ t.hostTime = some (BitVec.ofInt 64 x) ∧ (BitVec.ofInt 64 x).toInt = x ∧
        t.calls = .hostSet (BitVec.ofInt 64 x) :: .memRead 0x02#8 7 :: s.calls
    | .error e => e ≠ .hostClockInvalid ∧ ∃ t,
        Host.Core.run Sys2Proof.core
          (match e with | .transportError => 1 | .clockHalted => 3 | _ => 5) s = .next t ∧
        t.err = some e ∧ (t.halted = true ↔ e = .clockHalted) ∧ t.calOk = false ∧
        t.calls = .memRead 0x02#8 7 :: s.calls

/-- `WRHOST`: running the four operations is the one function of the host's answer, the port's answer taken when the
write is made. On success the device holds the block, VL clear; with an invalid host time the port is not called, under
either policy. A valid record outside the ranges is refused by `FROMCAL` when `FROMCAL_OOR` is `refuse`, with nothing
written. The answers are the first of the model's lists of inputs (assumption 7), what was called is read off its trace
(assumption 14). Derived (spec/44_sequences.md WRHOST; spec/92_eei_decisions.md D10). -/
def Obligations.WrhostIsItsFunction : Prop :=
  ∀ s : State, s.seq = opWords wrhostOps →
    match wrhostBlock (hostAnswer (worldMove s)) with
    | .error e => e = .hostClockInvalid ∧ ∃ t, Host.Core.run Sys2Proof.core 1 s = .next t ∧
        t.err = some .hostClockInvalid ∧ t.halted = false ∧ t.calOk = false ∧
        t.calls = .hostGet :: s.calls
    | .ok r =>
      (s.params.fromcalOor = .refuse → calInRange (hostAnswer (worldMove s)) = false →
        Host.Core.run Sys2Proof.core 2 s = .refused .outOfRange) ∧
      (s.params.fromcalOor = .truncate ∨ calInRange (hostAnswer (worldMove s)) = true →
        r.b0.toNat < 128 ∧ ∃ (okW : Bool) (t : State), (∀ b bs, s.writes = b :: bs → okW = b) ∧
          Host.Core.run Sys2Proof.core 4 s = .next t ∧
          t.calls = .memWrite 0x02#8 (blockBytes r) :: .hostGet :: s.calls ∧
          t.halted = false ∧ t.calOk = false ∧
          (match wrhostResult (hostAnswer (worldMove s)) okW with
           | .ok r' => okW = true ∧ r' = r ∧ t.err = none ∧ t.seq = [] ∧ deviceVl t.dev = some false ∧
               ∀ k, (h : k < (blockBytes r).length) →
                 Memory.read t.dev (Config.blockAddr.toNat + k) = some (blockBytes r)[k]
           | .error e => okW = false ∧ e = .transportError ∧ t.err = some .transportError))

/-- A transaction depends on the answers it receives and on nothing the block, the device or the host held: two
`RDSYNC` with the same read answer end alike, and so do two `WRHOST` with the same host answer and the same write
answer, under either policy (a record the policy refuses is refused in both). A run has ended when an error stands or no
operation is left. The answers are the first of the model's lists of inputs (assumption 7), the calls compared are its
trace (assumption 14). Derived (spec/44_sequences.md, rules on the transactions). -/
def Obligations.TransactionsAreIndependent : Prop :=
  (∀ s s' : State, s.seq = opWords rdsyncOps → s'.seq = opWords rdsyncOps → s.params = s'.params →
    readAnswer (worldMove s) = readAnswer (worldMove s') →
    ∃ (k : Nat) (t t' : State) (new : List PortCall), Host.Core.run Sys2Proof.core k s = .next t ∧
      Host.Core.run Sys2Proof.core k s' = .next t' ∧ (t.err ≠ none ∨ t.seq = []) ∧
      (t'.err ≠ none ∨ t'.seq = []) ∧ t.raw = t'.raw ∧ t.f = t'.f ∧ t.c = t'.c ∧ t.halted = t'.halted ∧
      t.calOk = t'.calOk ∧ t.err = t'.err ∧
      t.calls = new ++ s.calls ∧ t'.calls = new ++ s'.calls ∧ new ≠ []) ∧
  (∀ (s s' : State) (b : Bool) (bs bs' : List Bool), s.seq = opWords wrhostOps → s'.seq = opWords wrhostOps →
    s.params = s'.params →
    s.params.fromcalOor = .truncate ∨ calInRange (hostAnswer (worldMove s)) = true ∨
      (hostAnswer (worldMove s)).valid = false →
    hostAnswer (worldMove s) = hostAnswer (worldMove s') → s.writes = b :: bs → s'.writes = b :: bs' →
    ∃ (k : Nat) (t t' : State) (new : List PortCall), Host.Core.run Sys2Proof.core k s = .next t ∧
      Host.Core.run Sys2Proof.core k s' = .next t' ∧ (t.err ≠ none ∨ t.seq = []) ∧
      (t'.err ≠ none ∨ t'.seq = []) ∧ t.raw = t'.raw ∧ t.f = t'.f ∧ t.c = t'.c ∧ t.halted = t'.halted ∧
      t.calOk = t'.calOk ∧ t.err = t'.err ∧
      t.calls = new ++ s.calls ∧ t'.calls = new ++ s'.calls ∧ new ≠ []) ∧
  (∀ s s' : State, s.seq = opWords wrhostOps → s'.seq = opWords wrhostOps → s.params = s'.params →
    s.params.fromcalOor = .refuse → hostAnswer (worldMove s) = hostAnswer (worldMove s') →
    (hostAnswer (worldMove s)).valid = true → calInRange (hostAnswer (worldMove s)) = false →
    Host.Core.run Sys2Proof.core 2 s = .refused .outOfRange ∧ Host.Core.run Sys2Proof.core 2 s' = .refused .outOfRange)

/-- After `HGET` every operation that needs `RAW` or `F` is refused, and after `RDBLK` every operation that needs `F` or
`C`, so that a transaction broken in on there cannot go on with values of its own. The operations that need `C` after
`HGET`, or `RAW` after `RDBLK`, can be accepted, on the values of the newer transaction (DEDUCED, assumption 19). Derived
(spec/44_sequences.md, rules on the transactions; spec/10_state.md section 12). -/
def Obligations.NewTransactionLeavesOtherGroupsUnwritten : Prop :=
  (∀ s t : State, exec .hget s = .next t →
    ∀ i : Instr, i = .decode ∨ i = .chkosc ∨ i = .tocal ∨ i = .encode ∨ i = .wrblk → ∃ g, exec i t = .refused g) ∧
  (∀ s t : State, exec .rdblk s = .next t →
    ∀ i : Instr, i = .chkosc ∨ i = .tocal ∨ i = .chkcal ∨ i = .hpush ∨ i = .fromcal ∨ i = .encode →
      ∃ g, exec i t = .refused g)

/-- What is written is read back: a valid host record that would pass the check, written by `WRHOST` and read by an
`RDSYNC` whose answer is those very bytes, gives the host the timestamp of its own record. That the device returns the
bytes is a premise the spec does not promise (spec/20_memory.md section 6). Derived (spec/42_calendar.md, laws). -/
def Obligations.WriteThenReadGivesSameTime : Prop :=
  ∀ (p : Params) (h : Calendar), h.valid = true → calendarOk p h = true → ∃ (r : RawBlock) (x : Int),
    wrhostBlock h = .ok r ∧ timestamp h = some x ∧ rdsyncResult p ⟨true, blockBytes r⟩ = .ok x ∧
    toCal (decodeBlock r) = { h with ts := none, weekday := h.weekday &&& 7#8 }
end

