-- ==== Sys2Proof/Laws/State.lean ====
section
/-! SUPPORT. One lemma per field of State for each named update of Machine/Ops.lean, each true by unfolding the update
once, so that no later proof does. -/

namespace Sys2Proof.Machine

/-! ### `raise E` (spec/60_exceptions.md R100) -/

@[simp] theorem raise_raw (e : SyncError) (s : State) : (raise e s).raw = none := rfl
@[simp] theorem raise_f (e : SyncError) (s : State) : (raise e s).f = none := rfl
@[simp] theorem raise_c (e : SyncError) (s : State) : (raise e s).c = none := rfl
@[simp] theorem raise_halted (e : SyncError) (s : State) : (raise e s).halted = s.halted := rfl
@[simp] theorem raise_calOk (e : SyncError) (s : State) : (raise e s).calOk = s.calOk := rfl
@[simp] theorem raise_err (e : SyncError) (s : State) : (raise e s).err = some e := rfl
@[simp] theorem raise_dev (e : SyncError) (s : State) : (raise e s).dev = s.dev := rfl
@[simp] theorem raise_hostTime (e : SyncError) (s : State) : (raise e s).hostTime = s.hostTime := rfl
@[simp] theorem raise_params (e : SyncError) (s : State) : (raise e s).params = s.params := rfl
@[simp] theorem raise_seq (e : SyncError) (s : State) : (raise e s).seq = [] := rfl
@[simp] theorem raise_queue (e : SyncError) (s : State) : (raise e s).queue = s.queue := rfl
@[simp] theorem raise_reads (e : SyncError) (s : State) : (raise e s).reads = s.reads := rfl
@[simp] theorem raise_writes (e : SyncError) (s : State) : (raise e s).writes = s.writes := rfl
@[simp] theorem raise_hosts (e : SyncError) (s : State) : (raise e s).hosts = s.hosts := rfl
@[simp] theorem raise_moves (e : SyncError) (s : State) : (raise e s).moves = s.moves := rfl
@[simp] theorem raise_draws (e : SyncError) (s : State) : (raise e s).draws = s.draws := rfl
@[simp] theorem raise_calls (e : SyncError) (s : State) : (raise e s).calls = s.calls := rfl

/-! ### The cleared block (spec/43_ports.md R86) -/

@[simp] theorem clearBlock_raw (s : State) : (clearBlock s).raw = none := rfl
@[simp] theorem clearBlock_f (s : State) : (clearBlock s).f = none := rfl
@[simp] theorem clearBlock_c (s : State) : (clearBlock s).c = none := rfl
@[simp] theorem clearBlock_halted (s : State) : (clearBlock s).halted = false := rfl
@[simp] theorem clearBlock_calOk (s : State) : (clearBlock s).calOk = false := rfl
@[simp] theorem clearBlock_err (s : State) : (clearBlock s).err = none := rfl
@[simp] theorem clearBlock_dev (s : State) : (clearBlock s).dev = s.dev := rfl
@[simp] theorem clearBlock_hostTime (s : State) : (clearBlock s).hostTime = s.hostTime := rfl
@[simp] theorem clearBlock_params (s : State) : (clearBlock s).params = s.params := rfl
@[simp] theorem clearBlock_seq (s : State) : (clearBlock s).seq = s.seq := rfl
@[simp] theorem clearBlock_queue (s : State) : (clearBlock s).queue = s.queue := rfl
@[simp] theorem clearBlock_reads (s : State) : (clearBlock s).reads = s.reads := rfl
@[simp] theorem clearBlock_writes (s : State) : (clearBlock s).writes = s.writes := rfl
@[simp] theorem clearBlock_hosts (s : State) : (clearBlock s).hosts = s.hosts := rfl
@[simp] theorem clearBlock_moves (s : State) : (clearBlock s).moves = s.moves := rfl
@[simp] theorem clearBlock_draws (s : State) : (clearBlock s).draws = s.draws := rfl
@[simp] theorem clearBlock_calls (s : State) : (clearBlock s).calls = s.calls := rfl

/-! ### After `MemRead` (spec/20_memory.md R28) -/

@[simp] theorem afterMemRead_raw (a : Byte) (n : Nat) (s : State) : (afterMemRead a n s).raw = s.raw := rfl
@[simp] theorem afterMemRead_f (a : Byte) (n : Nat) (s : State) : (afterMemRead a n s).f = s.f := rfl
@[simp] theorem afterMemRead_c (a : Byte) (n : Nat) (s : State) : (afterMemRead a n s).c = s.c := rfl
@[simp] theorem afterMemRead_halted (a : Byte) (n : Nat) (s : State) : (afterMemRead a n s).halted = s.halted := rfl
@[simp] theorem afterMemRead_calOk (a : Byte) (n : Nat) (s : State) : (afterMemRead a n s).calOk = s.calOk := rfl
@[simp] theorem afterMemRead_err (a : Byte) (n : Nat) (s : State) : (afterMemRead a n s).err = s.err := rfl
@[simp] theorem afterMemRead_dev (a : Byte) (n : Nat) (s : State) : (afterMemRead a n s).dev = s.dev := rfl
@[simp] theorem afterMemRead_hostTime (a : Byte) (n : Nat) (s : State) :
    (afterMemRead a n s).hostTime = s.hostTime := rfl
@[simp] theorem afterMemRead_params (a : Byte) (n : Nat) (s : State) : (afterMemRead a n s).params = s.params := rfl
@[simp] theorem afterMemRead_seq (a : Byte) (n : Nat) (s : State) : (afterMemRead a n s).seq = s.seq := rfl
@[simp] theorem afterMemRead_queue (a : Byte) (n : Nat) (s : State) : (afterMemRead a n s).queue = s.queue := rfl
@[simp] theorem afterMemRead_reads (a : Byte) (n : Nat) (s : State) : (afterMemRead a n s).reads = s.reads.tail := rfl
@[simp] theorem afterMemRead_writes (a : Byte) (n : Nat) (s : State) : (afterMemRead a n s).writes = s.writes := rfl
@[simp] theorem afterMemRead_hosts (a : Byte) (n : Nat) (s : State) : (afterMemRead a n s).hosts = s.hosts := rfl
@[simp] theorem afterMemRead_moves (a : Byte) (n : Nat) (s : State) : (afterMemRead a n s).moves = s.moves := rfl
@[simp] theorem afterMemRead_draws (a : Byte) (n : Nat) (s : State) : (afterMemRead a n s).draws = s.draws + 1 := rfl
@[simp] theorem afterMemRead_calls (a : Byte) (n : Nat) (s : State) :
    (afterMemRead a n s).calls = .memRead a n :: s.calls := rfl

/-! ### After `MemWrite` (spec/20_memory.md R29) -/

@[simp] theorem afterMemWrite_raw (a : Byte) (r : RawBlock) (s : State) : (afterMemWrite a r s).raw = s.raw := rfl
@[simp] theorem afterMemWrite_f (a : Byte) (r : RawBlock) (s : State) : (afterMemWrite a r s).f = s.f := rfl
@[simp] theorem afterMemWrite_c (a : Byte) (r : RawBlock) (s : State) : (afterMemWrite a r s).c = s.c := rfl
@[simp] theorem afterMemWrite_halted (a : Byte) (r : RawBlock) (s : State) :
    (afterMemWrite a r s).halted = s.halted := rfl
@[simp] theorem afterMemWrite_calOk (a : Byte) (r : RawBlock) (s : State) : (afterMemWrite a r s).calOk = s.calOk := rfl
@[simp] theorem afterMemWrite_err (a : Byte) (r : RawBlock) (s : State) : (afterMemWrite a r s).err = s.err := rfl
@[simp] theorem afterMemWrite_dev (a : Byte) (r : RawBlock) (s : State) :
    (afterMemWrite a r s).dev = Memory.writeRun s.dev a.toNat
      (blockBytes (if writeAnswer s then heldBlock s.dev r (Config.freeVl s.draws) else Config.freeDevice s.draws)) := rfl
@[simp] theorem afterMemWrite_hostTime (a : Byte) (r : RawBlock) (s : State) :
    (afterMemWrite a r s).hostTime = s.hostTime := rfl
@[simp] theorem afterMemWrite_params (a : Byte) (r : RawBlock) (s : State) :
    (afterMemWrite a r s).params = s.params := rfl
@[simp] theorem afterMemWrite_seq (a : Byte) (r : RawBlock) (s : State) : (afterMemWrite a r s).seq = s.seq := rfl
@[simp] theorem afterMemWrite_queue (a : Byte) (r : RawBlock) (s : State) : (afterMemWrite a r s).queue = s.queue := rfl
@[simp] theorem afterMemWrite_reads (a : Byte) (r : RawBlock) (s : State) : (afterMemWrite a r s).reads = s.reads := rfl
@[simp] theorem afterMemWrite_writes (a : Byte) (r : RawBlock) (s : State) :
    (afterMemWrite a r s).writes = s.writes.tail := rfl
@[simp] theorem afterMemWrite_hosts (a : Byte) (r : RawBlock) (s : State) : (afterMemWrite a r s).hosts = s.hosts := rfl
@[simp] theorem afterMemWrite_moves (a : Byte) (r : RawBlock) (s : State) : (afterMemWrite a r s).moves = s.moves := rfl
@[simp] theorem afterMemWrite_draws (a : Byte) (r : RawBlock) (s : State) :
    (afterMemWrite a r s).draws = s.draws + 1 := rfl
@[simp] theorem afterMemWrite_calls (a : Byte) (r : RawBlock) (s : State) :
    (afterMemWrite a r s).calls = .memWrite a (blockBytes r) :: s.calls := rfl

/-! ### After `HostGet` (spec/43_ports.md R87) -/

@[simp] theorem afterHostGet_raw (s : State) : (afterHostGet s).raw = s.raw := rfl
@[simp] theorem afterHostGet_f (s : State) : (afterHostGet s).f = s.f := rfl
@[simp] theorem afterHostGet_c (s : State) : (afterHostGet s).c = s.c := rfl
@[simp] theorem afterHostGet_halted (s : State) : (afterHostGet s).halted = s.halted := rfl
@[simp] theorem afterHostGet_calOk (s : State) : (afterHostGet s).calOk = s.calOk := rfl
@[simp] theorem afterHostGet_err (s : State) : (afterHostGet s).err = s.err := rfl
@[simp] theorem afterHostGet_dev (s : State) : (afterHostGet s).dev = s.dev := rfl
@[simp] theorem afterHostGet_hostTime (s : State) : (afterHostGet s).hostTime = s.hostTime := rfl
@[simp] theorem afterHostGet_params (s : State) : (afterHostGet s).params = s.params := rfl
@[simp] theorem afterHostGet_seq (s : State) : (afterHostGet s).seq = s.seq := rfl
@[simp] theorem afterHostGet_queue (s : State) : (afterHostGet s).queue = s.queue := rfl
@[simp] theorem afterHostGet_reads (s : State) : (afterHostGet s).reads = s.reads := rfl
@[simp] theorem afterHostGet_writes (s : State) : (afterHostGet s).writes = s.writes := rfl
@[simp] theorem afterHostGet_hosts (s : State) : (afterHostGet s).hosts = s.hosts.tail := rfl
@[simp] theorem afterHostGet_moves (s : State) : (afterHostGet s).moves = s.moves := rfl
@[simp] theorem afterHostGet_draws (s : State) : (afterHostGet s).draws = s.draws + 1 := rfl
@[simp] theorem afterHostGet_calls (s : State) : (afterHostGet s).calls = .hostGet :: s.calls := rfl

/-! ### After `HostSet` (spec/43_ports.md R87) -/

@[simp] theorem hostSet_raw (t : Timestamp) (s : State) : (hostSet t s).raw = s.raw := rfl
@[simp] theorem hostSet_f (t : Timestamp) (s : State) : (hostSet t s).f = s.f := rfl
@[simp] theorem hostSet_c (t : Timestamp) (s : State) : (hostSet t s).c = s.c := rfl
@[simp] theorem hostSet_halted (t : Timestamp) (s : State) : (hostSet t s).halted = s.halted := rfl
@[simp] theorem hostSet_calOk (t : Timestamp) (s : State) : (hostSet t s).calOk = s.calOk := rfl
@[simp] theorem hostSet_err (t : Timestamp) (s : State) : (hostSet t s).err = s.err := rfl
@[simp] theorem hostSet_dev (t : Timestamp) (s : State) : (hostSet t s).dev = s.dev := rfl
@[simp] theorem hostSet_hostTime (t : Timestamp) (s : State) : (hostSet t s).hostTime = some t := rfl
@[simp] theorem hostSet_params (t : Timestamp) (s : State) : (hostSet t s).params = s.params := rfl
@[simp] theorem hostSet_seq (t : Timestamp) (s : State) : (hostSet t s).seq = s.seq := rfl
@[simp] theorem hostSet_queue (t : Timestamp) (s : State) : (hostSet t s).queue = s.queue := rfl
@[simp] theorem hostSet_reads (t : Timestamp) (s : State) : (hostSet t s).reads = s.reads := rfl
@[simp] theorem hostSet_writes (t : Timestamp) (s : State) : (hostSet t s).writes = s.writes := rfl
@[simp] theorem hostSet_hosts (t : Timestamp) (s : State) : (hostSet t s).hosts = s.hosts := rfl
@[simp] theorem hostSet_moves (t : Timestamp) (s : State) : (hostSet t s).moves = s.moves := rfl
@[simp] theorem hostSet_draws (t : Timestamp) (s : State) : (hostSet t s).draws = s.draws := rfl
@[simp] theorem hostSet_calls (t : Timestamp) (s : State) : (hostSet t s).calls = .hostSet t :: s.calls := rfl

/-! ### The world has moved on its own (spec/10_state.md R22) -/

@[simp] theorem worldMove_raw (s : State) : (worldMove s).raw = s.raw := rfl
@[simp] theorem worldMove_f (s : State) : (worldMove s).f = s.f := rfl
@[simp] theorem worldMove_c (s : State) : (worldMove s).c = s.c := rfl
@[simp] theorem worldMove_halted (s : State) : (worldMove s).halted = s.halted := rfl
@[simp] theorem worldMove_calOk (s : State) : (worldMove s).calOk = s.calOk := rfl
@[simp] theorem worldMove_err (s : State) : (worldMove s).err = s.err := rfl
@[simp] theorem worldMove_dev (s : State) :
    (worldMove s).dev = Memory.writeRun s.dev Config.blockAddr.toNat
      (blockBytes { (nextMove s).device with b0 := stickyVl s.dev (nextMove s).device.b0 }) := rfl
@[simp] theorem worldMove_hostTime (s : State) : (worldMove s).hostTime = (nextMove s).hostTime := rfl
@[simp] theorem worldMove_params (s : State) : (worldMove s).params = s.params := rfl
@[simp] theorem worldMove_seq (s : State) : (worldMove s).seq = s.seq := rfl
@[simp] theorem worldMove_queue (s : State) : (worldMove s).queue = s.queue := rfl
@[simp] theorem worldMove_reads (s : State) : (worldMove s).reads = s.reads := rfl
@[simp] theorem worldMove_writes (s : State) : (worldMove s).writes = s.writes := rfl
@[simp] theorem worldMove_hosts (s : State) : (worldMove s).hosts = s.hosts := rfl
@[simp] theorem worldMove_moves (s : State) : (worldMove s).moves = s.moves.tail := rfl
@[simp] theorem worldMove_draws (s : State) : (worldMove s).draws = s.draws + 1 := rfl
@[simp] theorem worldMove_calls (s : State) : (worldMove s).calls = s.calls := rfl

end Sys2Proof.Machine
end

