-- ==== Sys2Proof/Laws/Ops.lean ====
section
/-! SUPPORT. What the shared operations do, said once each: the device's registers and their canonical form, the blocks
of bytes, the `require` clauses, and the step. -/

namespace Sys2Proof.Machine

/-! ### The device's registers -/

@[simp] theorem Memory_read_nil (a : Nat) : Memory.read [] a = none := rfl

theorem Memory_read_write_same (m : Memory) (a : Nat) (v : Byte) : Memory.read (Memory.write m a v) a = some v := by
  induction m with
  | nil => simp [Memory.write, Memory.read]
  | cons p m ih =>
    obtain ⟨b, u⟩ := p
    simp only [Memory.write]
    split
    · simp [Memory.read]
    · split
      · simp [Memory.read]
      · rename_i h
        simp [Memory.read, h, ih]

theorem Memory_read_write_other (m : Memory) {a b : Nat} (v : Byte) (h : b ≠ a) :
    Memory.read (Memory.write m a v) b = Memory.read m b := by
  induction m with
  | nil => simp [Memory.write, Memory.read, h, Memory.unlisted]
  | cons p m ih =>
    obtain ⟨c, u⟩ := p
    simp only [Memory.write]
    split
    · simp [Memory.read, h]
    · split
      · subst_vars
        simp [Memory.read, h]
      · simp [Memory.read, ih]

/-- Every address of the written registers was listed before or is the written one. -/
theorem Memory_write_fst {m : Memory} {a : Nat} {v : Byte} {p : Host.Cell} (h : p ∈ Memory.write m a v) :
    p.1 = a ∨ p ∈ m := by
  induction m with
  | nil => simp_all [Memory.write]
  | cons q m ih =>
    obtain ⟨b, u⟩ := q
    simp only [Memory.write] at h
    split at h
    · simp only [List.mem_cons] at h ⊢
      rcases h with rfl | h
      · exact .inl rfl
      · exact .inr h
    · split at h
      · simp only [List.mem_cons] at h ⊢
        rcases h with rfl | h
        · exact .inl rfl
        · exact .inr (.inr h)
      · simp only [List.mem_cons] at h ⊢
        rcases h with rfl | h
        · exact .inr (.inl rfl)
        · exact (ih h).imp id .inr

/-- A write to an address in scope keeps the canonical form. -/
theorem Memory_write_wf {m : Memory} {a : Nat} (v : Byte) (ha : Memory.mapped a) (h : Memory.wf m) :
    Memory.wf (Memory.write m a v) := by
  refine ⟨?_, fun p hp => (Memory_write_fst hp).elim (fun e => e ▸ ha) (h.2 p)⟩
  replace h := h.1
  induction m with
  | nil => simp [Memory.write]
  | cons q m ih =>
    obtain ⟨b, u⟩ := q
    simp only [List.map_cons, List.pairwise_cons, List.mem_map, forall_exists_index, and_imp] at h
    simp only [Memory.write]
    split
    · simp only [List.map_cons, List.pairwise_cons, List.mem_cons, List.mem_map, forall_eq_or_imp]
      refine ⟨⟨by assumption, ?_⟩, ?_, h.2⟩
      · rintro x ⟨p, hp, rfl⟩
        exact Nat.lt_trans (by assumption) (h.1 _ p hp rfl)
      · rintro x ⟨p, hp, rfl⟩
        exact h.1 _ p hp rfl
    · split
      · subst_vars
        simp only [List.map_cons, List.pairwise_cons, List.mem_map]
        exact ⟨by rintro x ⟨p, hp, rfl⟩; exact h.1 _ p hp rfl, h.2⟩
      · simp only [List.map_cons, List.pairwise_cons, List.mem_map]
        refine ⟨?_, ih h.2⟩
        rintro x ⟨p, hp, rfl⟩
        rcases Memory_write_fst hp with e | hp
        · omega
        · exact h.1 _ p hp rfl

theorem Memory_writeRun_wf {m : Memory} {a : Nat} {vs : List Byte} (ha : 2 ≤ a) (hn : a + vs.length ≤ 9)
    (h : Memory.wf m) : Memory.wf (Memory.writeRun m a vs) := by
  induction vs generalizing m a with
  | nil => exact h
  | cons v vs ih =>
    simp only [List.length_cons] at hn
    exact ih (by omega) (by omega) (Memory_write_wf v ⟨ha, by omega⟩ h)

/-- A run leaves every address outside it as it was. -/
theorem Memory_read_writeRun_outside (m : Memory) {a b : Nat} (vs : List Byte) (h : b < a ∨ a + vs.length ≤ b) :
    Memory.read (Memory.writeRun m a vs) b = Memory.read m b := by
  induction vs generalizing m a with
  | nil => rfl
  | cons v vs ih =>
    simp only [List.length_cons] at h
    simp only [Memory.writeRun]
    rw [ih _ (by omega), Memory_read_write_other _ _ (by omega)]

/-- Byte `k` of a run stands at `a + k`. -/
theorem Memory_read_writeRun_inside (m : Memory) (a : Nat) (vs : List Byte) (k : Nat) (h : k < vs.length) :
    Memory.read (Memory.writeRun m a vs) (a + k) = some vs[k] := by
  induction vs generalizing m a k with
  | nil => simp at h
  | cons v vs ih =>
    simp only [Memory.writeRun]
    cases k with
    | zero =>
      rw [Memory_read_writeRun_outside _ _ (by omega), Nat.add_zero, Memory_read_write_same]
      rfl
    | succ k =>
      have := ih (Memory.write m a v) (a + 1) k (by simpa using h)
      rw [show a + (k + 1) = a + 1 + k by omega, this]; rfl

/-- The registers that hold a block are those of a block written to an empty map. -/
theorem Memory_ofBlock_eq (r : RawBlock) : Memory.ofBlock r = Memory.writeRun [] 2 (blockBytes r) := rfl

theorem Memory_ofBlock_wf (r : RawBlock) : Memory.wf (Memory.ofBlock r) := by
  rw [Memory_ofBlock_eq]
  exact Memory_writeRun_wf (by omega) (by simp [blockBytes]) ⟨.nil, by simp⟩

/-- Reset's registers are in canonical form. -/
theorem State_reset_dev_wf : Memory.wf State.reset.dev := Memory_ofBlock_wf _

/-- A write gives a value to an address and takes none away. -/
theorem Memory_write_isSome {m : Memory} {a b : Nat} (v : Byte) (h : a = b ∨ (Memory.read m b).isSome = true) :
    (Memory.read (Memory.write m a v) b).isSome = true := by
  by_cases e : b = a
  · subst e; simp [Memory_read_write_same]
  · rw [Memory_read_write_other m v e]
    exact h.resolve_left (Ne.symm e)

/-- A run takes no address's value away. -/
theorem Memory_writeRun_isSome {m : Memory} {a b : Nat} (vs : List Byte) (h : (Memory.read m b).isSome = true) :
    (Memory.read (Memory.writeRun m a vs) b).isSome = true := by
  induction vs generalizing m a with
  | nil => exact h
  | cons v vs ih => exact ih (Memory_write_isSome v (.inr h))

/-! ### Blocks of bytes -/

@[simp] theorem blockBytes_length (r : RawBlock) : (blockBytes r).length = 7 := rfl

@[simp] theorem blockOfBytes_blockBytes (r : RawBlock) : blockOfBytes (blockBytes r) = some r := rfl

/-- Exactly the lists of seven bytes are blocks (spec/40_codec.md R59). -/
theorem blockOfBytes_eq_some {bs : List Byte} {r : RawBlock} : blockOfBytes bs = some r ↔ blockBytes r = bs := by
  constructor
  · intro h
    unfold blockOfBytes at h
    split at h
    · cases h; rfl
    · cases h
  · rintro rfl
    rfl

theorem blockOfBytes_isSome (bs : List Byte) : (blockOfBytes bs).isSome = true ↔ bs.length = 7 := by
  constructor
  · intro h
    obtain ⟨r, hr⟩ := Option.isSome_iff_exists.mp h
    rw [← blockOfBytes_eq_some.mp hr]; rfl
  · intro h
    match bs, h with
    | [_, _, _, _, _, _, _], _ => rfl

/-- What a successful read delivers (spec/20_memory.md R30). -/
theorem answerBlock_eq_some {a : ReadAnswer} {r : RawBlock} :
    answerBlock a = some r ↔ a.ok = true ∧ blockBytes r = a.bytes := by
  unfold answerBlock
  split <;> simp_all [blockOfBytes_eq_some]

/-- When a read fails: `ok` is false or the count is not 7 (spec/20_memory.md R30). -/
theorem answerBlock_eq_none {a : ReadAnswer} : answerBlock a = none ↔ a.ok = false ∨ a.got ≠ 7 := by
  have h := blockOfBytes_isSome a.bytes
  unfold answerBlock ReadAnswer.got
  cases a.ok <;> cases hb : blockOfBytes a.bytes <;> simp_all

/-! ### The VL bit -/

@[simp] theorem withBit7_getLsbD_seven (b : Byte) (v : Bool) : (withBit7 b v).getLsbD 7 = v := by
  revert b v; decide

@[simp] theorem withBit7_toNat_low (b : Byte) (v : Bool) : (withBit7 b v).toNat % 128 = b.toNat % 128 := by
  revert b v; decide

theorem writtenVl_of_clear (m : Memory) {b : Byte} (free : Bool) (h : b.getLsbD 7 = false) :
    writtenVl m b free = b := by
  unfold writtenVl
  rw [h]
  rfl

theorem heldBlock_of_clear (m : Memory) {r : RawBlock} (free : Bool) (h : r.b0.getLsbD 7 = false) :
    heldBlock m r free = r := by
  simp [heldBlock, writtenVl_of_clear m free h]

/-! ### The `require` clauses: an operation that goes on had its operand -/

theorem withRaw_next {s t : State} {k : RawBlock → Host.Outcome State Fault Refusal} (h : withRaw s k = .next t) :
    ∃ r, s.raw = some r ∧ k r = .next t := by
  unfold withRaw at h
  split at h
  · exact ⟨_, by assumption, h⟩
  · cases h

theorem withF_next {s t : State} {k : Fields → Host.Outcome State Fault Refusal} (h : withF s k = .next t) :
    ∃ f, s.f = some f ∧ k f = .next t := by
  unfold withF at h
  split at h
  · exact ⟨_, by assumption, h⟩
  · cases h

theorem withC_next {s t : State} {k : Calendar → Host.Outcome State Fault Refusal} (h : withC s k = .next t) :
    ∃ c, s.c = some c ∧ k c = .next t := by
  unfold withC at h
  split at h
  · exact ⟨_, by assumption, h⟩
  · cases h

@[simp] theorem withRaw_some {s : State} {r : RawBlock} (k : RawBlock → Host.Outcome State Fault Refusal)
    (h : s.raw = some r) : withRaw s k = k r := by simp [withRaw, h]

@[simp] theorem withRaw_none {s : State} (k : RawBlock → Host.Outcome State Fault Refusal) (h : s.raw = none) :
    withRaw s k = .refused (.unwritten .raw) := by simp [withRaw, h]

@[simp] theorem withF_some {s : State} {f : Fields} (k : Fields → Host.Outcome State Fault Refusal)
    (h : s.f = some f) : withF s k = k f := by simp [withF, h]

@[simp] theorem withF_none {s : State} (k : Fields → Host.Outcome State Fault Refusal) (h : s.f = none) :
    withF s k = .refused (.unwritten .f) := by simp [withF, h]

@[simp] theorem withC_some {s : State} {c : Calendar} (k : Calendar → Host.Outcome State Fault Refusal)
    (h : s.c = some c) : withC s k = k c := by simp [withC, h]

@[simp] theorem withC_none {s : State} (k : Calendar → Host.Outcome State Fault Refusal) (h : s.c = none) :
    withC s k = .refused (.unwritten .c) := by simp [withC, h]

/-! ### The calendar functions -/

/-- A record that passes the check has a timestamp within the bounds (spec/41_validity.md R70). -/
theorem calendarOk_timestamp {p : Params} {c : Calendar} (h : calendarOk p c = true) :
    ∃ t, timestamp c = some t ∧ p.tsMin.toInt ≤ t ∧ t ≤ p.tsMax.toInt := by
  simp only [calendarOk, Bool.and_eq_true] at h
  have hb := h.2
  unfold stampInBounds at hb
  split at hb
  · exact ⟨_, by assumption, by simpa using hb⟩
  · cases hb

/-! ### The operations -/

/-- Everything an operation that goes on can have done, with the operand it took and each of its outcomes. -/
theorem exec_next_cases {i : Instr} {s t : State} (h : exec i s = .next t) :
    (i = .rdblk ∧
      ((∃ r, answerBlock (readAnswer s) = some r ∧
          t = { afterMemRead Config.blockAddr Config.blockLen (clearBlock s) with raw := some r }) ∨
        (answerBlock (readAnswer s) = none ∧
          t = raise .transportError (afterMemRead Config.blockAddr Config.blockLen (clearBlock s))))) ∨
    (i = .decode ∧ ∃ r, s.raw = some r ∧ t = { s with f := some (decodeBlock r) }) ∨
    (i = .chkosc ∧ ∃ f, s.f = some f ∧
      ((oscStopped f = true ∧ t = raise .clockHalted { s with halted := true }) ∨
        (oscStopped f = false ∧ t = { s with halted := false }))) ∨
    (i = .tocal ∧ ∃ f, s.f = some f ∧ t = { s with c := some (toCal f) }) ∨
    (i = .chkcal ∧ ∃ c, s.c = some c ∧
      ((calendarOk s.params c = true ∧ t = { s with calOk := true, c := some (stamped c) }) ∨
        (calendarOk s.params c = false ∧
          t = raise .invalidCalendar { s with calOk := false, c := some (unstamped c) }))) ∨
    (i = .hpush ∧ ∃ c x, s.c = some c ∧ c.ts = some x ∧ t = hostSet x s) ∨
    (i = .hget ∧
      (((hostAnswer s).valid = true ∧ t = { afterHostGet (clearBlock s) with c := some (hostAnswer s) }) ∨
        ((hostAnswer s).valid = false ∧ t = raise .hostClockInvalid (afterHostGet (clearBlock s))))) ∨
    (i = .fromcal ∧ ∃ c, s.c = some c ∧ (s.params.fromcalOor = .truncate ∨ calInRange c = true) ∧
      t = { s with f := some (fromCal c) }) ∨
    (i = .encode ∧ ∃ f, s.f = some f ∧ t = { s with raw := some (encodeBlock f) }) ∨
    (i = .wrblk ∧ ∃ r, s.raw = some r ∧
      ((writeAnswer s = true ∧ t = afterMemWrite Config.blockAddr r s) ∨
        (writeAnswer s = false ∧ t = raise .transportError (afterMemWrite Config.blockAddr r s)))) := by
  cases i <;> simp only [exec] at h <;> simp only [reduceCtorEq, false_and, false_or, or_false, true_and]
  · simp only [execRdblk, Host.Outcome.next.injEq] at h
    subst h
    split <;> simp_all
  · obtain ⟨r, hr, h⟩ := withRaw_next h
    cases h
    exact ⟨r, hr, rfl⟩
  · obtain ⟨f, hf, h⟩ := withF_next h
    refine ⟨f, hf, ?_⟩
    split at h <;> cases h <;> simp_all
  · obtain ⟨f, hf, h⟩ := withF_next h
    cases h
    exact ⟨f, hf, rfl⟩
  · obtain ⟨c, hc, h⟩ := withC_next h
    refine ⟨c, hc, ?_⟩
    split at h <;> cases h <;> simp_all
  · obtain ⟨c, hc, h⟩ := withC_next h
    split at h <;> cases h
    exact ⟨c, _, hc, by assumption, rfl⟩
  · simp only [execHget, Host.Outcome.next.injEq] at h
    subst h
    split <;> simp_all
  · obtain ⟨c, hc, h⟩ := withC_next h
    split at h <;> cases h
    refine ⟨c, hc, ?_, rfl⟩
    cases ho : s.params.fromcalOor <;> simp_all
  · obtain ⟨f, hf, h⟩ := withF_next h
    cases h
    exact ⟨f, hf, rfl⟩
  · obtain ⟨r, hr, h⟩ := withRaw_next h
    cases h
    refine ⟨r, hr, ?_⟩
    split <;> simp_all

/-! ### The step -/

@[simp] theorem fetch_cons {s : State} {w : OpWord} {ws : List OpWord} (h : s.seq = w :: ws) :
    fetch s = some (w, { s with seq := ws }) := by simp [fetch, h]

@[simp] theorem fetch_nil {s : State} (h : s.seq = []) : fetch s = none := by simp [fetch, h]

/-- What a step that goes on did: the caller acted between two sequences, or the next word's operation ran. -/
theorem step_cases {s t : State} (h : step s = .next t) :
    (s.seq = [] ∧ t = callerAct (worldMove s)) ∨
    (∃ w ws i, s.seq = w :: ws ∧ decode w = .ok i ∧ exec i { worldMove s with seq := ws } = .next t) := by
  unfold step at h
  cases hs : s.seq with
  | nil =>
    rw [fetch_nil (by simpa using hs)] at h
    cases h
    exact .inl ⟨rfl, rfl⟩
  | cons w ws =>
    rw [fetch_cons (w := w) (ws := ws) (by simpa using hs)] at h
    simp only [runWord] at h
    split at h
    · exact .inr ⟨w, ws, _, rfl, by assumption, h⟩
    · cases h

/-- What the caller can do between two sequences (assumption 6). -/
theorem callerAct_cases (s : State) :
    (s.queue = [] ∧ callerAct s = s) ∨
    (∃ ops q, s.queue = .run ops :: q ∧ callerAct s = { s with seq := ops, queue := q }) ∨
    (∃ q, s.queue = .reset :: q ∧ callerAct s = { clearBlock s with queue := q }) := by
  unfold callerAct
  cases hq : s.queue with
  | nil => exact .inl ⟨rfl, rfl⟩
  | cons a q =>
    cases a with
    | run ops => exact .inr (.inl ⟨ops, q, rfl, rfl⟩)
    | reset => exact .inr (.inr ⟨q, rfl, rfl⟩)

end Sys2Proof.Machine
end

