-- ==== Sys2Proof/Laws/PerInstr.lean ====
section
/-! SUPPORT. Statements about every operation, one lemma per constructor: each operation's number is one of the ten
assigned ones (spec/30_encoding.md R45). -/

namespace Sys2Proof.Laws.NumberAssigned

/-- The operation's number selects an operation and is no reserved number. -/
def Statement (i : Instr) : Prop := i.wellFormed = true ∧ OpWord.assigned (encode i) = true

theorem rdblk : Statement .rdblk := ⟨rfl, rfl⟩
theorem decode : Statement .decode := ⟨rfl, rfl⟩
theorem chkosc : Statement .chkosc := ⟨rfl, rfl⟩
theorem tocal : Statement .tocal := ⟨rfl, rfl⟩
theorem chkcal : Statement .chkcal := ⟨rfl, rfl⟩
theorem hpush : Statement .hpush := ⟨rfl, rfl⟩
theorem hget : Statement .hget := ⟨rfl, rfl⟩
theorem fromcal : Statement .fromcal := ⟨rfl, rfl⟩
theorem encode : Statement .encode := ⟨rfl, rfl⟩
theorem wrblk : Statement .wrblk := ⟨rfl, rfl⟩

end Sys2Proof.Laws.NumberAssigned
end

