-- ==== Sys2Proof/Machine/Assembler.lean ====
section
/-! DEFINITION. The listing syntax (spec/30_encoding.md R58): one operation a line, its mnemonic alone in upper case, a
comment from `;` to the end of the line, and the two pseudo-operations. The names are the spec's own
(spec/92_eei_decisions.md D3). -/

namespace Sys2Proof.Machine

/-- The mnemonic of an operation (spec/30_encoding.md R45). -/
def mnemonic : Instr → String
  | .rdblk => "RDBLK"
  | .decode => "DECODE"
  | .chkosc => "CHKOSC"
  | .tocal => "TOCAL"
  | .chkcal => "CHKCAL"
  | .hpush => "HPUSH"
  | .hget => "HGET"
  | .fromcal => "FROMCAL"
  | .encode => "ENCODE"
  | .wrblk => "WRBLK"

/-- The ten operations in the order of their numbers. -/
def allOps : List Instr := [.rdblk, .decode, .chkosc, .tocal, .chkcal, .hpush, .hget, .fromcal, .encode, .wrblk]

/-- The characters without the spaces that stand first. -/
def dropSpaces (cs : List Char) : List Char := cs.dropWhile (fun ch => ch == ' ')

/-- The name on a line: its characters before a comment, without the spaces around it
(spec/30_encoding.md R58; DESIGN CHOICE, assumption 24). -/
def lineName (l : String) : List Char :=
  (dropSpaces (dropSpaces (l.toList.takeWhile (fun ch => ch != ';'))).reverse).reverse

/-- The operations a line stands for: none for an empty line, one for a mnemonic, a fixed sequence for a
pseudo-operation; `none` for any other text. -/
def assembleLine (l : String) : Option (List Instr) :=
  if lineName l = [] then some []
  else if lineName l = "RDSYNC".toList then some rdsyncOps
  else if lineName l = "WRHOST".toList then some wrhostOps
  else (allOps.find? (fun i => lineName l = (mnemonic i).toList)).map (fun i => [i])

/-- The encoding of a program: the list of its `OP4` numbers (spec/30_encoding.md R58). -/
def assemble : List String → Option (List OpWord)
  | [] => some []
  | l :: ls =>
    match assembleLine l, assemble ls with
    | some is, some ws => some (opWords is ++ ws)
    | _, _ => none

end Sys2Proof.Machine
end

