-- ==== Sys2Proof/Tests/Slice0.lean ====
section
/-! SUPPORT. The model's own tests. Expected values come from spec/95_test_vectors.md (the row is named) or from the rule
named; the witnesses show a state that meets the hypotheses of a statement. -/

namespace Sys2Proof.Tests

open Sys2Proof.Machine Sys2Proof.Safety

/-! ### The operation select: words written out from spec/30_encoding.md section 2 -/

theorem test_decode_rdblk : decode 0b0001#4 = .ok .rdblk := by rfl
theorem test_decode_decode : decode 0b0010#4 = .ok .decode := by rfl
theorem test_decode_chkosc : decode 0b0011#4 = .ok .chkosc := by rfl
theorem test_decode_tocal : decode 0b0100#4 = .ok .tocal := by rfl
theorem test_decode_chkcal : decode 0b0101#4 = .ok .chkcal := by rfl
theorem test_decode_hpush : decode 0b0110#4 = .ok .hpush := by rfl
theorem test_decode_hget : decode 0b1000#4 = .ok .hget := by rfl
theorem test_decode_fromcal : decode 0b1001#4 = .ok .fromcal := by rfl
theorem test_decode_encode : decode 0b1010#4 = .ok .encode := by rfl
theorem test_decode_wrblk : decode 0b1011#4 = .ok .wrblk := by rfl
theorem test_decode_reserved : decode 0b0111#4 = .error (.reserved 0b0111#4) := by rfl
theorem test_decodeTableWord : decodeTableWord 8 0x0B = some .wrblk ∧ decodeTableWord 8 0x0C = none := by decide

/-- WellFormed: each reserved number is refused by the check, the ends of the assigned runs pass
(spec/30_encoding.md R45, R46). -/
theorem test_assigned_refuses_reserved :
    [0x0#4, 0x7#4, 0xC#4, 0xD#4, 0xE#4, 0xF#4].all (fun w => !OpWord.assigned w) = true ∧
    [0x1#4, 0x6#4, 0x8#4, 0xB#4].all OpWord.assigned = true := by decide
/-- WellFormed: one reserved word makes a sequence ill formed. -/
theorem test_allAssigned_refuses_reserved :
    OpWord.allAssigned [1#4, 0xC#4, 2#4] = false ∧ OpWord.allAssigned (opWords rdsyncOps) = true := by decide

/-! ### Small states -/

/-- Block of spec/95_test_vectors.md S1. -/
def blockS1 : RawBlock := ⟨0x45, 0x30, 0x12, 0x03, 0x15, 0x89, 0x23⟩

/-- Fields of row D1. -/
def fieldsD1 : Fields := ⟨0, 4, 5, 3, 0, 1, 2, 3, 1, 5, 1, 0, 9, 2, 3⟩

/-- Record of S1, before the check. -/
def calS1 : Calendar := ⟨45, 30, 12, 3, 15, 9, 2023, none⟩

/-- Host record of row T10. -/
def calT10 : Calendar := ⟨0, 0, 0, 6, 1, 1, 2000, some 946684800⟩

/-- Reset with `RAW` holding a block. -/
def withBlock (r : RawBlock) : State := { State.reset with raw := some r }

/-- Reset with `F` holding fields. -/
def withFields (f : Fields) : State := { State.reset with f := some f }

/-- Reset with `C` holding a record. -/
def withCal (c : Calendar) : State := { State.reset with c := some c }

/-- Reset with one answer to the next read. -/
def withRead (ok : Bool) (bs : List Byte) : State := { State.reset with reads := [⟨ok, bs⟩] }

/-- A next state for which the check holds. -/
def nextIs (o : Host.Outcome State Fault Refusal) (p : State → Bool) : Bool :=
  match o with
  | .next t => p t
  | .fault _ => false
  | .refused _ => false

/-- Refused for want of a value in the group. -/
def refusedFor (o : Host.Outcome State Fault Refusal) (g : Refusal) : Bool :=
  match o with
  | .refused r => decide (r = g)
  | .next _ => false
  | .fault _ => false

/-! ### The operations, on rows of spec/95_test_vectors.md -/

/-- Row T1. -/
theorem test_rdblk_seven_bytes :
    nextIs (exec .rdblk (withRead true [0x45, 0x30, 0x12, 0x03, 0x15, 0x89, 0x23]))
      (fun t => decide (t.raw = some blockS1 ∧ t.err = none)) = true := by decide
/-- Rows T2, T5 and T6. -/
theorem test_rdblk_failures :
    [withRead true [0x45, 0x30, 0x12, 0x03, 0x15, 0x89],
     withRead false [0x45, 0x30, 0x12, 0x03, 0x15, 0x89, 0x23],
     withRead true [0x45, 0x30, 0x12, 0x03, 0x15, 0x89, 0x23, 0x00]].all
      (fun s => nextIs (exec .rdblk s) (fun t => decide (t.raw = none ∧ t.errCode = 1#3))) = true := by decide
/-- Rows D5 and D6: unused bits ignored, month tens at bit 4 of byte 5. -/
theorem test_decode_fields :
    nextIs (exec .decode (withBlock ⟨0x45, 0xB0, 0xD2, 0xFB, 0xD5, 0xE9, 0x23⟩)) (fun t => decide (t.f = some fieldsD1)) = true ∧
    nextIs (exec .decode (withBlock ⟨0x59, 0x59, 0x23, 0x06, 0x31, 0x12, 0x99⟩))
      (fun t => decide (t.f = some ⟨0, 5, 9, 5, 9, 2, 3, 6, 3, 1, 0, 1, 2, 9, 9⟩)) = true := by decide
/-- Rows X1 and 2.1: refused while `RAW` is unwritten. -/
theorem test_decode_unwritten : refusedFor (exec .decode State.reset) (.unwritten .raw) = true := by decide
/-- Row O2. -/
theorem test_chkosc_halted :
    nextIs (exec .chkosc (withFields { fieldsD1 with vl := 1 }))
      (fun t => decide (t.halted = true ∧ t.errCode = 2#3 ∧ t.f = none)) = true := by decide
/-- Row O1. -/
theorem test_chkosc_running :
    nextIs (exec .chkosc { withFields fieldsD1 with halted := true })
      (fun t => decide (t.halted = false ∧ t.err = none ∧ t.f = some fieldsD1)) = true := by decide
/-- Row A1. -/
theorem test_tocal_decimal : nextIs (exec .tocal (withFields fieldsD1)) (fun t => decide (t.c = some calS1)) = true := by
  decide
/-- Row A3: every maximum. -/
theorem test_tocal_maxima :
    nextIs (exec .tocal (withFields ⟨1, 7, 15, 7, 15, 3, 15, 7, 3, 15, 1, 1, 15, 15, 15⟩))
      (fun t => decide (t.c = some ⟨85, 85, 45, 7, 45, 25, 2165, none⟩)) = true := by decide
/-- Rows K1, K2, K11: a passing record takes its timestamp. -/
theorem test_chkcal_passes :
    nextIs (exec .chkcal (withCal calS1)) (fun t => decide (t.c = some { calS1 with ts := some 1694781045 } ∧ t.calOk = true)) = true ∧
    timestamp ⟨0, 0, 0, 0, 1, 1, 1900, none⟩ = some (-2208988800) ∧
    timestamp ⟨0, 0, 0, 2, 29, 2, 2000, none⟩ = some 951782400 := by decide
/-- Rows K12 and S6g. -/
theorem test_chkcal_fails :
    [(⟨0, 0, 0, 2, 29, 2, 1900, none⟩ : Calendar), { calS1 with day := 32 }].all
      (fun c => nextIs (exec .chkcal (withCal c)) (fun t => decide (t.errCode = 3#3 ∧ t.calOk = false ∧ t.c = none))) = true := by
  decide
/-- Row T13. -/
theorem test_hpush_sends :
    nextIs (exec .hpush (withCal { calS1 with ts := some 1694781045 }))
      (fun t => decide (t.hostTime = some 1694781045 ∧ t.calls = [.hostSet 1694781045])) = true := by decide
/-- Row T14. -/
theorem test_hpush_unchecked : refusedFor (exec .hpush (withCal calS1)) .notValid = true := by decide
/-- Row T10. -/
theorem test_hget_valid :
    nextIs (exec .hget { withBlock blockS1 with hosts := [calT10] })
      (fun t => decide (t.c = some calT10 ∧ t.raw = none ∧ t.err = none)) = true := by decide
/-- Row T11. -/
theorem test_hget_invalid :
    nextIs (exec .hget { State.reset with hosts := [calS1] }) (fun t => decide (t.c = none ∧ t.errCode = 4#3)) = true := by
  decide
/-- Row W14: every component at the top of its width. -/
theorem test_fromcal_truncates :
    nextIs (exec .fromcal (withCal ⟨255, 255, 255, 255, 255, 255, 65535, none⟩))
      (fun t => decide (t.f = some ⟨0, 1, 5, 1, 5, 1, 5, 7, 1, 5, 1, 1, 5, 3, 5⟩)) = true := by decide
/-- Row W13 with `FROMCAL_OOR = refuse`. -/
theorem test_fromcal_refuses :
    refusedFor (exec .fromcal { withCal ⟨7, 5, 37, 7, 32, 13, 2023, none⟩ with
      params := { Params.default with fromcalOor := .refuse } }) .outOfRange = true := by decide
/-- Rows E1 and E2. -/
theorem test_encode_block :
    nextIs (exec .encode (withFields fieldsD1)) (fun t => decide (t.raw = some blockS1)) = true ∧
    encodeBlock ⟨1, 7, 15, 7, 15, 3, 15, 7, 3, 15, 1, 1, 15, 15, 15⟩ = ⟨0xFF, 0x7F, 0x3F, 0x07, 0x3F, 0x9F, 0xFF⟩ := by decide
/-- Row T8. -/
theorem test_wrblk_stores :
    nextIs (exec .wrblk { withBlock ⟨0x00, 0x00, 0x00, 0x06, 0x01, 0x81, 0x00⟩ with writes := [true] })
      (fun t => decide (t.dev = [(2, 0x00), (3, 0x00), (4, 0x00), (5, 0x06), (6, 0x01), (7, 0x81), (8, 0x00)] ∧
        t.err = none)) = true := by decide
/-- Row T9. -/
theorem test_wrblk_failure :
    nextIs (exec .wrblk { withBlock blockS1 with writes := [false] })
      (fun t => decide (t.raw = none ∧ t.errCode = 1#3)) = true := by decide

/-- Rows K8 to K10: `TS_MIN` and `TS_MAX` of a 32-bit host. -/
theorem test_calendarOk_narrow_bounds :
    let p : Params := { Params.default with tsMin := BitVec.ofInt 64 (-2147483648), tsMax := 2147483647 }
    calendarOk p ⟨7, 14, 3, 1, 19, 1, 2038, none⟩ = true ∧ calendarOk p ⟨8, 14, 3, 1, 19, 1, 2038, none⟩ = false ∧
    calendarOk p ⟨52, 45, 20, 5, 13, 12, 1901, none⟩ = true ∧ calendarOk p ⟨51, 45, 20, 5, 13, 12, 1901, none⟩ = false := by
  decide

/-- The day counts of spec/95_test_vectors.md section 2.4. -/
theorem test_daysFromEpoch :
    daysFromEpoch 1969 12 31 = some (-1) ∧ daysFromEpoch 1900 1 1 = some (-25567) ∧
    daysFromEpoch 2000 1 1 = some 10957 ∧ daysFromEpoch 2023 9 15 = some 19615 ∧ daysFromEpoch 2100 1 1 = some 47482 := by
  decide

/-- Row Q5 and Q9: the read transaction as one function. -/
theorem test_rdsyncResult :
    rdsyncResult Params.default ⟨true, [0x45, 0x30, 0x12, 0x03, 0x30, 0x82, 0x23]⟩ = .error .invalidCalendar ∧
    rdsyncResult Params.default ⟨true, [0x59, 0x59, 0x23, 0x06, 0x31, 0x92, 0x99]⟩ = .ok 4102444799 := by
  constructor <;> rfl

/-- Program P9 and the expansion of `WRHOST`. -/
theorem test_assemble :
    assemble ["RDBLK      ; port: true, 7", "DECODE", "ENCODE", "WRHOST"] =
      some [0x1#4, 0x2#4, 0xA#4, 0x8#4, 0x9#4, 0xA#4, 0xB#4] ∧ assemble ["DECODE 1"] = none := by decide

/-! ### Witnesses: for each statement with hypotheses, a state and operands that meet them together -/

/-- A device whose VL is set. -/
def devVlSet : Memory := [(2, 0x80)]

/-- A state between two sequences with a move of the world given. -/
def idle : State := { State.reset with moves := [⟨blockS1, none⟩] }

/-- `RDSYNC` about to run, with the port's answer given. -/
def rdsyncOn (ok : Bool) (bs : List Byte) : State := { withRead ok bs with seq := opWords rdsyncOps }

/-- `WRHOST` about to run on a host record, under a policy. -/
def wrhostOn (h : Calendar) (o : OorPolicy) : State :=
  { State.reset with seq := opWords wrhostOps, hosts := [h], params := { Params.default with fromcalOor := o } }

theorem witness_DecodeEncodeAgree : Instr.wellFormed .wrblk = true := by decide
theorem witness_ReservedNumbersRefused :
    ∃ s : State, s.seq = [0xF#4] ∧ (0xF#4 : OpWord) = 0xF#4 := ⟨{ State.reset with seq := [0xF#4] }, rfl, rfl⟩
theorem witness_StepRunsDecodedOperation :
    (State.reset.withFetchWord 8 0xB).seq = [0xB#4] ∧ decode 0xB#4 = .ok .wrblk := by constructor <;> rfl
theorem witness_CallerActsBetweenSequences_waits : State.reset.seq = [] ∧ State.reset.queue = [] := by decide
theorem witness_CallerActsBetweenSequences_runs :
    let s : State := { State.reset with queue := [.run [1#4], .reset] }
    s.seq = [] ∧ s.queue = .run [1#4] :: [.reset] := by decide
theorem witness_CallerActsBetweenSequences_resets :
    let s : State := { withBlock blockS1 with queue := [.reset] }
    s.seq = [] ∧ s.queue = [.reset] := by decide
theorem witness_OnlyTransactionStartersRunUnwritten : groupsClear State.reset = true := by decide
theorem witness_CompletesExactlyWhenRequired :
    accepts (withBlock blockS1) .decode = true ∧ accepts State.reset .decode = false := by decide
theorem witness_TransactionForgetsBlock : sameOutside State.reset (withBlock blockS1) := by
  exact ⟨rfl, rfl, rfl, rfl, rfl, rfl, rfl, rfl, rfl, rfl, rfl⟩
theorem witness_DecodeExtractsFields : (withBlock blockS1).raw = some blockS1 ∧ State.reset.raw = none := by decide
theorem witness_EncodePacksFields : (withFields fieldsD1).f = some fieldsD1 ∧ State.reset.f = none := by decide
theorem witness_ChkoscReportsOscillator :
    (withFields { fieldsD1 with vl := 1 }).f = some { fieldsD1 with vl := 1 } ∧ fieldsD1.vl = 0#1 ∧
    (withFields fieldsD1).f = some fieldsD1 ∧ State.reset.f = none := by decide
theorem witness_MonthLengthsFollowLeapRule : (0 = 0 ∨ 12 < 0) ∧ (13 = 0 ∨ 12 < 13) := by decide
theorem witness_DayCountFollowsCalendar :
    daysFromEpoch 1970 1 1 = some 0 ∧ 11 ≤ 11 ∧ daysInMonth 2023 11 = some 30 ∧ (daysFromEpoch 2023 11 30).isSome = true ∧
    (daysFromEpoch 2023 12 31).isSome = true := by decide
theorem witness_WindowTimestampEdges :
    daysFromEpoch 2023 9 15 = some 19615 ∧
    calendarOk Params.default ⟨59, 59, 23, 6, 31, 12, 2099, none⟩ = true ∧
    timestamp ⟨59, 59, 23, 6, 31, 12, 2099, none⟩ = some 4102444799 := by decide
theorem witness_DefaultBoundsRejectNoDate :
    calS1.second.toNat ≤ 59 ∧ calS1.minute.toNat ≤ 59 ∧ calS1.hour.toNat ≤ 23 ∧ 1900 ≤ calS1.year.toNat ∧
    calS1.year.toNat ≤ 2099 ∧ daysInMonth calS1.year.toNat calS1.month.toNat = some 30 ∧ 1 ≤ calS1.day.toNat ∧
    calS1.day.toNat ≤ 30 := by decide
/-- Rows S6a to S6h meet the eight clauses one by one. -/
theorem witness_RequiredRejections :
    ({ calS1 with hour := 24 } : Calendar).hour = 24#8 ∧ ({ calS1 with minute := 60 } : Calendar).minute = 60#8 ∧
    ({ calS1 with second := 60 } : Calendar).second = 60#8 ∧ ({ calS1 with month := 0 } : Calendar).month = 0#8 ∧
    ({ calS1 with month := 13 } : Calendar).month = 13#8 ∧ ({ calS1 with day := 0 } : Calendar).day = 0#8 ∧
    ({ calS1 with day := 32 } : Calendar).day = 32#8 ∧
    (({ calS1 with day := 30, month := 2 } : Calendar).day = 30#8 ∧ ({ calS1 with day := 30, month := 2 } : Calendar).month = 2#8) := by
  decide
theorem witness_ChkcalCompletesRecord :
    (withCal calS1).c = some calS1 ∧ calendarOk (withCal calS1).params calS1 = true ∧ State.reset.c = none := by decide
theorem witness_ChkcalRaisesInvalidCalendar :
    (withCal { calS1 with day := 32 }).c = some { calS1 with day := 32 } ∧
    calendarOk State.reset.params { calS1 with day := 32 } = false := by decide
theorem witness_TocalComputesDecimals : (withFields fieldsD1).f = some fieldsD1 ∧ State.reset.f = none := by decide
theorem witness_FromcalSplitsDigits :
    (withCal calS1).c = some calS1 ∧ (withCal calS1).params.fromcalOor = .truncate ∧ State.reset.c = none := by decide
/-- The refusing machine with a record at the edges of the ranges, and with one just outside. -/
theorem witness_FromcalRefusePolicy :
    let s : State := { withCal ⟨59, 59, 23, 7, 31, 12, 2099, none⟩ with params := { Params.default with fromcalOor := .refuse } }
    s.c = some ⟨59, 59, 23, 7, 31, 12, 2099, none⟩ ∧ s.params.fromcalOor = .refuse ∧
    calInRange ⟨59, 59, 23, 7, 31, 12, 2099, none⟩ = true ∧ calInRange ⟨0, 0, 0, 0, 1, 1, 2100, none⟩ = false := by decide
theorem witness_CalendarRoundTrip : calInRange calS1 = true := by decide
theorem witness_WellFormedFieldsRoundTrip : bcdWellFormed fieldsD1 = true := by decide
theorem witness_YearsOutsideWindowAlias : (1999#16).toNat < 2000 ∧ 2000 ≤ (2000#16).toNat := by decide
/-- The read succeeds with seven bytes, and fails with six, with eight, and by its indicator. -/
theorem witness_RdblkLoadsBlock :
    ((readAnswer (withRead true (blockBytes blockS1))).ok = true ∧ (readAnswer (withRead true (blockBytes blockS1))).got = 7) ∧
    (readAnswer (withRead true [1, 2, 3, 4, 5, 6])).got = 6 ∧ (readAnswer (withRead true [1, 2, 3, 4, 5, 6, 7, 8])).got = 8 ∧
    (readAnswer (withRead false (blockBytes blockS1))).ok = false := by decide
/-- VL clear in the block, VL set in the block and in the device, and the two addresses just outside the run. -/
theorem witness_WrblkStoresBlock :
    let s : State := { withBlock { blockS1 with b0 := 0xC5 } with writes := [true], dev := devVlSet }
    s.raw = some { blockS1 with b0 := 0xC5 } ∧ writeAnswer s = true ∧ deviceVl s.dev = some true ∧ blockS1.b0.toNat < 128 ∧
    1 < Config.blockAddr.toNat ∧ Config.blockAddr.toNat + 7 ≤ 9 ∧ State.reset.raw = none := by decide
theorem witness_WrblkFailureRaises :
    let s : State := { withBlock blockS1 with writes := [false] }
    s.raw = some blockS1 ∧ writeAnswer s = false := by decide
theorem witness_HgetTakesHostTime :
    (hostAnswer { State.reset with hosts := [calT10] }).valid = true ∧
    (hostAnswer { State.reset with hosts := [calS1] }).valid = false := by decide
theorem witness_PortAnswersAreTaken :
    let s : State := { withBlock blockS1 with reads := [⟨false, [1]⟩], hosts := [calT10], writes := [true, false] }
    s.reads = ⟨false, [1]⟩ :: [] ∧ s.hosts = calT10 :: [] ∧ s.writes = true :: [false] ∧ s.rawW = true := by decide
theorem witness_HpushSendsTimestamp :
    (withCal calT10).c = some calT10 ∧ calT10.ts = some 946684800 ∧ (withCal calS1).c = some calS1 ∧ calS1.valid = false ∧
    State.reset.c = none := by decide
theorem witness_PushIgnoresWeekday :
    (withCal calT10).c = some calT10 ∧ exec .hpush (withCal calT10) = .next (hostSet 946684800 (withCal calT10)) :=
  ⟨rfl, rfl⟩
theorem witness_exec_next_read :
    ∃ t, exec .rdblk (withRead true (blockBytes blockS1)) = .next t ∧
      t.calls = .memRead 2#8 7 :: (withRead true (blockBytes blockS1)).calls := ⟨_, rfl, rfl⟩
theorem witness_HostReceivesOnlyValidTimestamps :
    exec .hpush (withCal calT10) = .next (hostSet 946684800 (withCal calT10)) ∧
    (hostSet 946684800 (withCal calT10)).calls = .hostSet 946684800 :: (withCal calT10).calls := ⟨rfl, rfl⟩
/-- For PortCallsHaveOneShape, OperationsFrameTheOutside, GroupsWrittenByTheirOperations, FlagsWrittenByTheirChecks,
ErrorsRaisedByTheirOperations and SequenceEndsAtRaise: operations that go on, one of them raising. -/
theorem witness_exec_next :
    exec .decode (withBlock blockS1) = .next { withBlock blockS1 with f := some fieldsD1 } ∧ (withBlock blockS1).err = none ∧
    exec .chkosc (withFields { fieldsD1 with vl := 1 }) =
      .next (raise .clockHalted { withFields { fieldsD1 with vl := 1 } with halted := true }) := ⟨rfl, rfl, rfl⟩
/-- The retry: `RDBLK` fails again while an error stands, and the next operation of its sequence is not issued. -/
theorem witness_SequenceEndsAtRaise_retry :
    let s : State := { withRead false [] with err := some .transportError, seq := [2#4] }
    s.err ≠ none ∧ nextIs (exec .rdblk s) (fun t => decide (t.err = some .transportError ∧ t.seq = [])) = true := by decide
theorem witness_ErrorsAreNotFatal : (raise .clockHalted State.reset).err = some .clockHalted := by decide
theorem witness_NoSecondErrorWhileOneStands :
    Inv { State.reset with err := some .clockHalted, halted := true } ∧
    ({ State.reset with err := some .clockHalted, halted := true } : State).err = some .clockHalted ∧
    Instr.tocal ≠ .rdblk ∧ Instr.tocal ≠ .hget := ⟨⟨by decide, by decide, by decide, by decide⟩, by decide, by decide, by decide⟩
theorem witness_ErrorPrecedence :
    (⟨true, [1, 2, 3, 4, 5, 6]⟩ : ReadAnswer).got ≠ 7 ∧ (⟨false, []⟩ : ReadAnswer).ok = false ∧
    (⟨true, blockBytes ⟨0x80, 0, 0, 0, 0, 0, 0⟩⟩ : ReadAnswer).bytes = blockBytes ⟨0x80, 0, 0, 0, 0, 0, 0⟩ ∧
    128 ≤ (0x80#8).toNat ∧ calS1.valid = false := by decide
theorem witness_StepKeepsInvariant : Inv idle ∧ step idle = .next (worldMove idle) :=
  ⟨⟨by decide, by decide, by decide, by decide⟩, rfl⟩
theorem witness_StepKeepsParametersAndHistory : step idle = .next (worldMove idle) := rfl
theorem witness_VlStaysSetUntilWritten_step :
    deviceVl { idle with dev := devVlSet }.dev = some true ∧
    step { idle with dev := devVlSet } = .next (worldMove { idle with dev := devVlSet }) := ⟨by decide, rfl⟩
theorem witness_VlStaysSetUntilWritten_write :
    let s : State := { withBlock { blockS1 with b0 := 0x80 } with writes := [true], dev := devVlSet }
    s.raw = some { blockS1 with b0 := 0x80 } ∧ writeAnswer s = true ∧ 128 ≤ (0x80#8).toNat ∧ deviceVl s.dev = some true ∧
    (0x7F#8).toNat < 128 := by decide
/-- One state for each of the four outcomes (rows Q1, Q2, Q3 and Q5 of spec/95_test_vectors.md). -/
theorem witness_RdsyncIsItsFunction :
    [rdsyncOn true (blockBytes blockS1), rdsyncOn true [0x45, 0x30, 0x12, 0x03, 0x15, 0x89],
       rdsyncOn true (blockBytes { blockS1 with b0 := 0xC5 }), rdsyncOn true (blockBytes { blockS1 with b4 := 0x30, b5 := 0x82 })].map
      (fun s => (decide (s.seq = opWords rdsyncOps), rdsyncResult s.params (readAnswer (worldMove s)))) =
    [(true, .ok 1694781045), (true, .error .transportError), (true, .error .clockHalted), (true, .error .invalidCalendar)] := rfl
/-- The record in the ranges under either policy, the invalid record, and the refused record. -/
theorem witness_WrhostIsItsFunction :
    (wrhostOn calT10 .truncate).seq = opWords wrhostOps ∧ (wrhostOn calT10 .truncate).params.fromcalOor = .truncate ∧
    hostAnswer (worldMove (wrhostOn calT10 .refuse)) = calT10 ∧ calT10.valid = true ∧ calInRange calT10 = true ∧
    hostAnswer (worldMove (wrhostOn calS1 .truncate)) = calS1 ∧ wrhostBlock calS1 = .error .hostClockInvalid ∧
    (wrhostOn { calT10 with year := 2100 } .refuse).params.fromcalOor = .refuse ∧
    (hostAnswer (worldMove (wrhostOn { calT10 with year := 2100 } .refuse))).valid = true ∧
    calInRange (hostAnswer (worldMove (wrhostOn { calT10 with year := 2100 } .refuse))) = false := by
  refine ⟨rfl, rfl, rfl, rfl, rfl, rfl, rfl, rfl, rfl, rfl⟩
theorem witness_TransactionsAreIndependent_read :
    let s : State := { withRead true (blockBytes blockS1) with seq := opWords rdsyncOps }
    let s' : State := { s with halted := true, dev := devVlSet }
    s.seq = opWords rdsyncOps ∧ s'.seq = opWords rdsyncOps ∧ s.params = s'.params ∧
    readAnswer (worldMove s) = readAnswer (worldMove s') := by decide
theorem witness_TransactionsAreIndependent_write :
    let s : State := { State.reset with seq := opWords wrhostOps, hosts := [calT10], writes := [true] }
    let s' : State := { s with err := some .clockHalted, writes := [true, false] }
    s.seq = opWords wrhostOps ∧ s'.seq = opWords wrhostOps ∧ s.params = s'.params ∧ s.params.fromcalOor = .truncate ∧
    hostAnswer (worldMove s) = hostAnswer (worldMove s') ∧ s.writes = true :: [] ∧ s'.writes = true :: [false] := by decide
theorem witness_TransactionsAreIndependent_refused :
    let s : State := wrhostOn { calT10 with year := 2100 } .refuse
    let s' : State := { s with halted := true }
    s.seq = opWords wrhostOps ∧ s'.seq = opWords wrhostOps ∧ s.params = s'.params ∧ s.params.fromcalOor = .refuse ∧
    hostAnswer (worldMove s) = hostAnswer (worldMove s') ∧ (hostAnswer (worldMove s)).valid = true ∧
    calInRange (hostAnswer (worldMove s)) = false := by decide
theorem witness_NewTransactionLeavesOtherGroupsUnwritten :
    (∃ t, exec .hget { State.reset with hosts := [calT10] } = .next t) ∧
    (∃ t, exec .rdblk (withRead true (blockBytes blockS1)) = .next t) := ⟨⟨_, rfl⟩, ⟨_, rfl⟩⟩
theorem witness_WriteThenReadGivesSameTime : calT10.valid = true ∧ calendarOk Params.default calT10 = true := by decide

end Sys2Proof.Tests
end

section
/-! PROOFS. The register codec (spec/40_codec.md): the bits a range of a byte holds, as a number; the sub-fields of
`Decode` byte by byte; and `DECODE`. -/

namespace Sys2Proof.Machine

/-! ### A bit range of a byte, as a number -/

/-- `b[hi:lo]` is what is left of `b` when the bits below `lo` are shifted out and those above `hi` dropped. -/
theorem Byte_range_toNat (b : Byte) (hi lo : Nat) :
    (b.extractLsb hi lo).toNat = b.toNat / 2 ^ lo % 2 ^ (hi - lo + 1) := by
  rw [BitVec.extractLsb_toNat, Nat.shiftRight_eq_div_pow]

/-- A range that starts at bit 0 shifts nothing out. -/
theorem Byte_lowRange_toNat (b : Byte) (hi : Nat) : (b.extractLsb hi 0).toNat = b.toNat % 2 ^ (hi + 1) := by
  rw [Byte_range_toNat, Nat.pow_zero, Nat.div_one, Nat.sub_zero]

/-- A range that reaches bit 7 drops nothing above it. -/
theorem Byte_topRange_toNat (b : Byte) {lo : Nat} (h : lo ≤ 7) : (b.extractLsb 7 lo).toNat = b.toNat / 2 ^ lo := by
  rw [Byte_range_toNat]
  apply Nat.mod_eq_of_lt
  rw [Nat.div_lt_iff_lt_mul (Nat.two_pow_pos lo), ← Nat.pow_add, show 7 - lo + 1 + lo = 8 by omega]
  exact b.isLt

/-! ### `Decode`, byte by byte (spec/30_encoding.md R48 to R54) -/

theorem decodeBlock_byte0 (r : RawBlock) :
    (decodeBlock r).vl.toNat = r.b0.toNat / 128 ∧ (decodeBlock r).secTens.toNat = r.b0.toNat / 16 % 8 ∧
    (decodeBlock r).secUnits.toNat = r.b0.toNat % 16 :=
  ⟨Byte_topRange_toNat (lo := 7) _ (by decide), Byte_range_toNat _ 6 4, Byte_lowRange_toNat _ 3⟩

theorem decodeBlock_byte1 (r : RawBlock) :
    (decodeBlock r).minTens.toNat = r.b1.toNat / 16 % 8 ∧ (decodeBlock r).minUnits.toNat = r.b1.toNat % 16 :=
  ⟨Byte_range_toNat _ 6 4, Byte_lowRange_toNat _ 3⟩

theorem decodeBlock_byte2 (r : RawBlock) :
    (decodeBlock r).hourTens.toNat = r.b2.toNat / 16 % 4 ∧ (decodeBlock r).hourUnits.toNat = r.b2.toNat % 16 :=
  ⟨Byte_range_toNat _ 5 4, Byte_lowRange_toNat _ 3⟩

theorem decodeBlock_byte3 (r : RawBlock) : (decodeBlock r).weekday.toNat = r.b3.toNat % 8 :=
  Byte_lowRange_toNat _ 2

theorem decodeBlock_byte4 (r : RawBlock) :
    (decodeBlock r).dayTens.toNat = r.b4.toNat / 16 % 4 ∧ (decodeBlock r).dayUnits.toNat = r.b4.toNat % 16 :=
  ⟨Byte_range_toNat _ 5 4, Byte_lowRange_toNat _ 3⟩

theorem decodeBlock_byte5 (r : RawBlock) :
    (decodeBlock r).century.toNat = r.b5.toNat / 128 ∧ (decodeBlock r).monthTens.toNat = r.b5.toNat / 16 % 2 ∧
    (decodeBlock r).monthUnits.toNat = r.b5.toNat % 16 :=
  ⟨Byte_topRange_toNat (lo := 7) _ (by decide), Byte_range_toNat _ 4 4, Byte_lowRange_toNat _ 3⟩

theorem decodeBlock_byte6 (r : RawBlock) :
    (decodeBlock r).yearTens.toNat = r.b6.toNat / 16 ∧ (decodeBlock r).yearUnits.toNat = r.b6.toNat % 16 :=
  ⟨Byte_topRange_toNat (lo := 4) _ (by decide), Byte_lowRange_toNat _ 3⟩

/-! ### `DECODE` (spec/40_codec.md R59) -/

theorem exec_decode_of_raw {s : State} {r : RawBlock} (h : s.raw = some r) :
    exec .decode s = .next { s with f := some (decodeBlock r) } :=
  withRaw_some _ h

theorem exec_decode_unwritten {s : State} (h : s.raw = none) : exec .decode s = .refused (.unwritten .raw) :=
  withRaw_none _ h

/-- Settles O10: the fields are those of `decodeBlock`, whose ranges are cut byte by byte. -/
theorem decodeExtractsFields : Obligations.DecodeExtractsFields := by
  refine ⟨fun s r hraw => ⟨decodeBlock r, exec_decode_of_raw hraw, ?_⟩, fun s hraw => exec_decode_unwritten hraw⟩
  obtain ⟨hvl, hsecTens, hsecUnits⟩ := decodeBlock_byte0 r
  obtain ⟨hminTens, hminUnits⟩ := decodeBlock_byte1 r
  obtain ⟨hhourTens, hhourUnits⟩ := decodeBlock_byte2 r
  have hweekday := decodeBlock_byte3 r
  obtain ⟨hdayTens, hdayUnits⟩ := decodeBlock_byte4 r
  obtain ⟨hcentury, hmonthTens, hmonthUnits⟩ := decodeBlock_byte5 r
  obtain ⟨hyearTens, hyearUnits⟩ := decodeBlock_byte6 r
  exact ⟨hvl, hsecTens, hsecUnits, hminTens, hminUnits, hhourTens, hhourUnits, hweekday, hdayTens, hdayUnits,
    hcentury, hmonthTens, hmonthUnits, hyearTens, hyearUnits⟩

end Sys2Proof.Machine
end

section
/-! PROOFS. The calendar conversions (spec/42_calendar.md): the value of a decimal pair, the components of `ToCal` as
numbers, and `TOCAL`. -/

namespace Sys2Proof.Machine

/-! ### Decimal digits (spec/30_encoding.md R56) -/

/-- The pair's value never wraps in 8 bits: a digit of at most four bits holds at most 15, decimal or not, so the value
is at most 15 * 10 + 15 = 165. -/
theorem pairValue_toNat {m n : Nat} (hm : m ≤ 4) (hn : n ≤ 4) (tens : BitVec m) (units : BitVec n) :
    (pairValue tens units).toNat = tens.toNat * 10 + units.toNat := by
  have htens := BitVec.toNat_lt_twoPow_of_le hm (x := tens)
  have hunits := BitVec.toNat_lt_twoPow_of_le hn (x := units)
  simp only [pairValue, BitVec.toNat_add, BitVec.toNat_mul, BitVec.toNat_setWidth, BitVec.toNat_ofNat]
  omega

/-! ### `ToCal`, component by component (spec/42_calendar.md R75) -/

@[simp] theorem toCal_second_toNat (f : Fields) :
    (toCal f).second.toNat = f.secTens.toNat * 10 + f.secUnits.toNat :=
  pairValue_toNat (by decide) (by decide) _ _

@[simp] theorem toCal_minute_toNat (f : Fields) :
    (toCal f).minute.toNat = f.minTens.toNat * 10 + f.minUnits.toNat :=
  pairValue_toNat (by decide) (by decide) _ _

@[simp] theorem toCal_hour_toNat (f : Fields) :
    (toCal f).hour.toNat = f.hourTens.toNat * 10 + f.hourUnits.toNat :=
  pairValue_toNat (by decide) (by decide) _ _

@[simp] theorem toCal_weekday_toNat (f : Fields) : (toCal f).weekday.toNat = f.weekday.toNat :=
  BitVec.toNat_setWidth_of_le (by decide)

@[simp] theorem toCal_day_toNat (f : Fields) :
    (toCal f).day.toNat = f.dayTens.toNat * 10 + f.dayUnits.toNat :=
  pairValue_toNat (by decide) (by decide) _ _

@[simp] theorem toCal_month_toNat (f : Fields) :
    (toCal f).month.toNat = f.monthTens.toNat * 10 + f.monthUnits.toNat :=
  pairValue_toNat (by decide) (by decide) _ _

/-- The year never wraps in 16 bits: it is at most 1900 + 100 + 165. -/
@[simp] theorem toCal_year_toNat (f : Fields) :
    (toCal f).year.toNat = 1900 + 100 * f.century.toNat + f.yearTens.toNat * 10 + f.yearUnits.toNat := by
  have hcentury := f.century.isLt
  have htens := f.yearTens.isLt
  have hunits := f.yearUnits.isLt
  simp only [toCal, BitVec.toNat_add, BitVec.toNat_mul, BitVec.toNat_setWidth, BitVec.toNat_ofNat]
  omega

@[simp] theorem toCal_ts (f : Fields) : (toCal f).ts = none := rfl

@[simp] theorem toCal_valid (f : Fields) : (toCal f).valid = false := rfl

/-! ### `TOCAL` (spec/42_calendar.md R75) -/

theorem exec_tocal_of_f {s : State} {f : Fields} (h : s.f = some f) :
    exec .tocal s = .next { s with c := some (toCal f) } :=
  withF_some _ h

theorem exec_tocal_unwritten {s : State} (h : s.f = none) : exec .tocal s = .refused (.unwritten .f) :=
  withF_none _ h

/-- Settles O26: the record is that of `toCal`, and none of its components wraps, whatever the digits. -/
theorem tocalComputesDecimals : Obligations.TocalComputesDecimals := by
  refine ⟨fun s f hf => ⟨toCal f, exec_tocal_of_f hf, ?_⟩, fun s hf => exec_tocal_unwritten hf⟩
  exact ⟨toCal_second_toNat f, toCal_minute_toNat f, toCal_hour_toNat f, toCal_weekday_toNat f, toCal_day_toNat f,
    toCal_month_toNat f, toCal_year_toNat f, toCal_ts f, toCal_valid f⟩

end Sys2Proof.Machine
end

section
/-! PROOFS. The two ports (spec/43_ports.md): what a read's answer gives, `RDBLK`, `HGET` and `HPUSH` by the answer or
the record they meet, and that no weekday reaches the host. -/

namespace Sys2Proof.Machine

/-! ### The answer to a read (spec/20_memory.md R30) -/

@[simp] theorem answerBlock_blockBytes (r : RawBlock) : answerBlock ⟨true, blockBytes r⟩ = some r :=
  answerBlock_eq_some.mpr ⟨rfl, rfl⟩

theorem answerBlock_of_success {a : ReadAnswer} (h : a.ok = true ∧ a.got = 7) :
    ∃ r, answerBlock a = some r ∧ blockBytes r = a.bytes := by
  obtain ⟨hok, hgot⟩ := h
  obtain ⟨r, hr⟩ := Option.isSome_iff_exists.mp ((blockOfBytes_isSome a.bytes).mpr hgot)
  have hbytes : blockBytes r = a.bytes := blockOfBytes_eq_some.mp hr
  exact ⟨r, answerBlock_eq_some.mpr ⟨hok, hbytes⟩, hbytes⟩

theorem answerBlock_of_failure {a : ReadAnswer} (h : ¬ (a.ok = true ∧ a.got = 7)) : answerBlock a = none :=
  answerBlock_eq_none.mpr ((not_and_or.mp h).imp_left Bool.eq_false_iff.mpr)

/-! ### `RDBLK` (spec/43_ports.md R82) -/

theorem exec_rdblk_of_block {s : State} {r : RawBlock} (h : answerBlock (readAnswer s) = some r) :
    exec .rdblk s =
      .next { afterMemRead Config.blockAddr Config.blockLen (clearBlock s) with raw := some r } := by
  simp only [exec, execRdblk, h]

theorem exec_rdblk_of_failure {s : State} (h : answerBlock (readAnswer s) = none) :
    exec .rdblk s =
      .next (raise .transportError (afterMemRead Config.blockAddr Config.blockLen (clearBlock s))) := by
  simp only [exec, execRdblk, h]

/-- Settles O34: the answer either is a block, which `RAW` takes, or is none, and `raise` clears the groups. -/
theorem rdblkLoadsBlock : Obligations.RdblkLoadsBlock := by
  refine fun s => ⟨fun hsuccess => ?_, fun hfailure => ?_⟩
  · obtain ⟨r, hr, hbytes⟩ := answerBlock_of_success hsuccess
    exact ⟨r, _, hbytes, exec_rdblk_of_block hr, rfl⟩
  · exact ⟨_, exec_rdblk_of_failure (answerBlock_of_failure hfailure), rfl⟩

/-! ### `HGET` (spec/43_ports.md R84) -/

theorem exec_hget_of_valid {s : State} (h : (hostAnswer s).valid = true) :
    exec .hget s = .next { afterHostGet (clearBlock s) with c := some (hostAnswer s) } := by
  simp only [exec, execHget, h, if_true]

theorem exec_hget_of_invalid {s : State} (h : (hostAnswer s).valid = false) :
    exec .hget s = .next (raise .hostClockInvalid (afterHostGet (clearBlock s))) := by
  simp only [exec, execHget, h, Bool.false_eq_true, if_false]

/-- Settles O37: by the validity flag of the host's record. -/
theorem hgetTakesHostTime : Obligations.HgetTakesHostTime :=
  fun _ => ⟨fun hvalid => ⟨_, exec_hget_of_valid hvalid, rfl⟩, fun hinvalid => ⟨_, exec_hget_of_invalid hinvalid, rfl⟩⟩

/-! ### `HPUSH` (spec/43_ports.md R85) -/

theorem exec_hpush_of_ts {s : State} {c : Calendar} {x : Timestamp} (hc : s.c = some c) (hts : c.ts = some x) :
    exec .hpush s = .next (hostSet x s) := by
  simp only [exec, execHpush, withC_some _ hc, hts]

theorem exec_hpush_next {s t : State} (h : exec .hpush s = .next t) :
    ∃ c x, s.c = some c ∧ c.ts = some x ∧ t = hostSet x s := by
  simpa using exec_next_cases h

/-! ### The weekday on its way to the host (spec/43_ports.md R88) -/

theorem decodeBlock_with_b3 (r : RawBlock) (b : Byte) :
    decodeBlock { r with b3 := b } = { decodeBlock r with weekday := b.extractLsb 2 0 } := rfl

theorem oscStopped_with_weekday (f : Fields) (w : BitVec 3) : oscStopped { f with weekday := w } = oscStopped f := rfl

theorem toCal_with_weekday (f : Fields) (w : BitVec 3) :
    toCal { f with weekday := w } = { toCal f with weekday := w.setWidth 8 } := rfl

theorem timestamp_with_weekday (c : Calendar) (w : BitVec 8) : timestamp { c with weekday := w } = timestamp c := rfl

theorem calendarOk_with_weekday (p : Params) (c : Calendar) (w : BitVec 8) :
    calendarOk p { c with weekday := w } = calendarOk p c := rfl

/-- What decides the end of `RDSYNC` for a block that was read: the oscillator's flag, the calendar check and the
timestamp, and nothing else of the block. -/
theorem rdsyncResult_congr {p : Params} {a a' : ReadAnswer} {r r' : RawBlock}
    (ha : answerBlock a = some r) (ha' : answerBlock a' = some r')
    (hosc : oscStopped (decodeBlock r) = oscStopped (decodeBlock r'))
    (hok : calendarOk p (toCal (decodeBlock r)) = calendarOk p (toCal (decodeBlock r')))
    (hts : timestamp (toCal (decodeBlock r)) = timestamp (toCal (decodeBlock r'))) :
    rdsyncResult p a = rdsyncResult p a' := by
  simp only [rdsyncResult, ha, ha', hosc, hok, hts]

/-- Settles O40: `HPUSH` reads the timestamp alone of `C`, and block byte 3 reaches the weekday alone, which the three
things that decide `RDSYNC` do not read. -/
theorem pushIgnoresWeekday : Obligations.PushIgnoresWeekday := by
  refine ⟨fun s t c w hc hpush => ?_, fun p r b => ?_⟩
  · obtain ⟨c', x, hc', hts, rfl⟩ := exec_hpush_next hpush
    obtain rfl : c = c' := Option.some.inj (hc.symm.trans hc')
    exact exec_hpush_of_ts rfl hts
  · apply rdsyncResult_congr (answerBlock_blockBytes _) (answerBlock_blockBytes _)
    · rw [decodeBlock_with_b3, oscStopped_with_weekday]
    · rw [decodeBlock_with_b3, toCal_with_weekday, calendarOk_with_weekday]
    · rw [decodeBlock_with_b3, toCal_with_weekday, timestamp_with_weekday]

end Sys2Proof.Machine
end

section
/-! PROOFS. The errors (spec/60_exceptions.md): the failing check of `CHKCAL` and the push that follows a raise, and the
two operations that begin a transaction, which every state accepts. -/

namespace Sys2Proof.Machine

/-! ### InvalidCalendar (spec/60_exceptions.md R98) -/

theorem exec_chkcal_of_failure {s : State} {c : Calendar} (hc : s.c = some c) (hfail : calendarOk s.params c = false) :
    exec .chkcal s = .next (raise .invalidCalendar { s with calOk := false, c := some (unstamped c) }) := by
  simp only [exec, execChkcal, withC_some _ hc, hfail, Bool.false_eq_true, if_false]

theorem exec_hpush_unwritten {s : State} (h : s.c = none) : exec .hpush s = .refused (.unwritten .c) :=
  withC_none _ h

/-- What `C` held when an error was raised does not reach the host: a push right after the raise finds no record. -/
theorem exec_hpush_raise (e : SyncError) (s : State) : exec .hpush (raise e s) = .refused (.unwritten .c) :=
  exec_hpush_unwritten (raise_c e s)

/-- Settles O25: the failing `CHKCAL` is a raise, which changes no more than its fields and leaves a following push no
record to hand on. -/
theorem chkcalRaisesInvalidCalendar : Obligations.ChkcalRaisesInvalidCalendar := by
  refine fun s c hc hfail => ⟨_, exec_chkcal_of_failure hc hfail, rfl, rfl, raise_calls _ _, raise_hostTime _ _, ?_⟩
  intro u hpush
  rw [exec_hpush_raise] at hpush
  cases hpush

/-! ### The errors are not fatal (spec/60_exceptions.md R106) -/

/-- No outcome is a fault, since the model has no fault to stop with (assumption 16). -/
theorem outcome_ne_fault (o : Host.Outcome State Fault Refusal) (x : Fault) : o ≠ .fault x := nomatch x

/-- `RDBLK` is accepted in every state; it clears `ERR` first, so it ends with no error or with its own. -/
theorem exec_rdblk_accepted (s : State) :
    ∃ t, exec .rdblk s = .next t ∧ (t.err = none ∨ t.err = some .transportError) := by
  cases hread : answerBlock (readAnswer s) with
  | some r => exact ⟨_, exec_rdblk_of_block hread, .inl (clearBlock_err s)⟩
  | none => exact ⟨_, exec_rdblk_of_failure hread, .inr (raise_err _ _)⟩

/-- `HGET` is accepted in every state; it clears `ERR` first, so it ends with no error or with its own. -/
theorem exec_hget_accepted (s : State) :
    ∃ t, exec .hget s = .next t ∧ (t.err = none ∨ t.err = some .hostClockInvalid) := by
  cases hvalid : (hostAnswer s).valid with
  | true => exact ⟨_, exec_hget_of_valid hvalid, .inl (clearBlock_err s)⟩
  | false => exact ⟨_, exec_hget_of_invalid hvalid, .inr (raise_err _ _)⟩

/-- Settles O48: there is no fault, and what `RDBLK` and `HGET` end in does not depend on the error that stands. -/
theorem errorsAreNotFatal : Obligations.ErrorsAreNotFatal :=
  ⟨fun i s x => outcome_ne_fault (exec i s) x, fun s x => outcome_ne_fault (step s) x,
    fun s _ _ => ⟨exec_rdblk_accepted s, exec_hget_accepted s⟩⟩

end Sys2Proof.Machine
end

section
/-! PROOFS. The operations, one equation per outcome where no earlier section gives it, and `Does`: the outcomes of an
operation that goes on, under a name each, for the proofs that go through them. -/

namespace Sys2Proof.Machine

open Sys2Proof.Safety

/-! ### The outcomes of each operation -/

theorem exec_chkosc_of_stopped {s : State} {f : Fields} (hf : s.f = some f) (hosc : oscStopped f = true) :
    exec .chkosc s = .next (raise .clockHalted { s with halted := true }) := by
  simp only [exec, execChkosc, withF_some _ hf, hosc, if_true]

theorem exec_chkosc_of_running {s : State} {f : Fields} (hf : s.f = some f) (hosc : oscStopped f = false) :
    exec .chkosc s = .next { s with halted := false } := by
  simp only [exec, execChkosc, withF_some _ hf, hosc, Bool.false_eq_true, if_false]

theorem exec_chkosc_unwritten {s : State} (h : s.f = none) : exec .chkosc s = .refused (.unwritten .f) :=
  withF_none _ h

theorem exec_chkcal_of_pass {s : State} {c : Calendar} (hc : s.c = some c) (hpass : calendarOk s.params c = true) :
    exec .chkcal s = .next { s with calOk := true, c := some (stamped c) } := by
  simp only [exec, execChkcal, withC_some _ hc, hpass, if_true]

theorem exec_chkcal_unwritten {s : State} (h : s.c = none) : exec .chkcal s = .refused (.unwritten .c) :=
  withC_none _ h

theorem exec_hpush_notValid {s : State} {c : Calendar} (hc : s.c = some c) (hts : c.ts = none) :
    exec .hpush s = .refused .notValid := by
  simp only [exec, execHpush, withC_some _ hc, hts]

theorem exec_fromcal_of_truncate {s : State} {c : Calendar} (hc : s.c = some c) (ho : s.params.fromcalOor = .truncate) :
    exec .fromcal s = .next { s with f := some (fromCal c) } := by
  simp only [exec, execFromcal, withC_some _ hc, ho, reduceCtorEq, false_and, if_false]

theorem exec_fromcal_of_inRange {s : State} {c : Calendar} (hc : s.c = some c) (hr : calInRange c = true) :
    exec .fromcal s = .next { s with f := some (fromCal c) } := by
  simp only [exec, execFromcal, withC_some _ hc, hr, Bool.true_eq_false, and_false, if_false]

theorem exec_fromcal_of_accepted {s : State} {c : Calendar} (hc : s.c = some c)
    (h : s.params.fromcalOor = .truncate ∨ calInRange c = true) :
    exec .fromcal s = .next { s with f := some (fromCal c) } :=
  h.elim (exec_fromcal_of_truncate hc) (exec_fromcal_of_inRange hc)

theorem exec_fromcal_outOfRange {s : State} {c : Calendar} (hc : s.c = some c) (ho : s.params.fromcalOor = .refuse)
    (hr : calInRange c = false) : exec .fromcal s = .refused .outOfRange := by
  simp only [exec, execFromcal, withC_some _ hc, ho, hr, and_self, if_true]

theorem exec_fromcal_unwritten {s : State} (h : s.c = none) : exec .fromcal s = .refused (.unwritten .c) :=
  withC_none _ h

theorem exec_encode_of_f {s : State} {f : Fields} (h : s.f = some f) :
    exec .encode s = .next { s with raw := some (encodeBlock f) } :=
  withF_some _ h

theorem exec_encode_unwritten {s : State} (h : s.f = none) : exec .encode s = .refused (.unwritten .f) :=
  withF_none _ h

theorem exec_wrblk_of_success {s : State} {r : RawBlock} (hr : s.raw = some r) (hw : writeAnswer s = true) :
    exec .wrblk s = .next (afterMemWrite Config.blockAddr r s) := by
  simp only [exec, execWrblk, withRaw_some _ hr, hw, if_true]

theorem exec_wrblk_of_failure {s : State} {r : RawBlock} (hr : s.raw = some r) (hw : writeAnswer s = false) :
    exec .wrblk s = .next (raise .transportError (afterMemWrite Config.blockAddr r s)) := by
  simp only [exec, execWrblk, withRaw_some _ hr, hw, Bool.false_eq_true, if_false]

theorem exec_wrblk_unwritten {s : State} (h : s.raw = none) : exec .wrblk s = .refused (.unwritten .raw) :=
  withRaw_none _ h

/-! ### What an operation that goes on has done -/

/-- The outcomes of an operation that goes on from `s`, each with the operand or the answer it met. -/
inductive Does (s : State) : Instr → State → Prop
  | rdblk {r} (hread : answerBlock (readAnswer s) = some r) :
      Does s .rdblk { afterMemRead Config.blockAddr Config.blockLen (clearBlock s) with raw := some r }
  | rdblkFails (hread : answerBlock (readAnswer s) = none) :
      Does s .rdblk (raise .transportError (afterMemRead Config.blockAddr Config.blockLen (clearBlock s)))
  | decode {r} (hraw : s.raw = some r) : Does s .decode { s with f := some (decodeBlock r) }
  | chkosc {f} (hf : s.f = some f) (hosc : oscStopped f = false) : Does s .chkosc { s with halted := false }
  | chkoscFails {f} (hf : s.f = some f) (hosc : oscStopped f = true) :
      Does s .chkosc (raise .clockHalted { s with halted := true })
  | tocal {f} (hf : s.f = some f) : Does s .tocal { s with c := some (toCal f) }
  | chkcal {c} (hc : s.c = some c) (hok : calendarOk s.params c = true) :
      Does s .chkcal { s with calOk := true, c := some (stamped c) }
  | chkcalFails {c} (hc : s.c = some c) (hok : calendarOk s.params c = false) :
      Does s .chkcal (raise .invalidCalendar { s with calOk := false, c := some (unstamped c) })
  | hpush {c x} (hc : s.c = some c) (hts : c.ts = some x) : Does s .hpush (hostSet x s)
  | hget (hvalid : (hostAnswer s).valid = true) :
      Does s .hget { afterHostGet (clearBlock s) with c := some (hostAnswer s) }
  | hgetFails (hvalid : (hostAnswer s).valid = false) :
      Does s .hget (raise .hostClockInvalid (afterHostGet (clearBlock s)))
  | fromcal {c} (hc : s.c = some c) (haccepted : s.params.fromcalOor = .truncate ∨ calInRange c = true) :
      Does s .fromcal { s with f := some (fromCal c) }
  | encode {f} (hf : s.f = some f) : Does s .encode { s with raw := some (encodeBlock f) }
  | wrblk {r} (hraw : s.raw = some r) (hw : writeAnswer s = true) :
      Does s .wrblk (afterMemWrite Config.blockAddr r s)
  | wrblkFails {r} (hraw : s.raw = some r) (hw : writeAnswer s = false) :
      Does s .wrblk (raise .transportError (afterMemWrite Config.blockAddr r s))

/-- `Does` is `exec` where it answers a next state. -/
theorem exec_next_iff {i : Instr} {s t : State} : exec i s = .next t ↔ Does s i t := by
  constructor
  · intro h
    rcases exec_next_cases h with ⟨rfl, ⟨r, hr, rfl⟩ | ⟨hr, rfl⟩⟩ | ⟨rfl, r, hr, rfl⟩ |
      ⟨rfl, f, hf, ⟨ho, rfl⟩ | ⟨ho, rfl⟩⟩ | ⟨rfl, f, hf, rfl⟩ | ⟨rfl, c, hc, ⟨ho, rfl⟩ | ⟨ho, rfl⟩⟩ |
      ⟨rfl, c, x, hc, hx, rfl⟩ | ⟨rfl, ⟨hv, rfl⟩ | ⟨hv, rfl⟩⟩ | ⟨rfl, c, hc, ha, rfl⟩ | ⟨rfl, f, hf, rfl⟩ |
      ⟨rfl, r, hr, ⟨hw, rfl⟩ | ⟨hw, rfl⟩⟩
    · exact .rdblk hr
    · exact .rdblkFails hr
    · exact .decode hr
    · exact .chkoscFails hf ho
    · exact .chkosc hf ho
    · exact .tocal hf
    · exact .chkcal hc ho
    · exact .chkcalFails hc ho
    · exact .hpush hc hx
    · exact .hget hv
    · exact .hgetFails hv
    · exact .fromcal hc ha
    · exact .encode hf
    · exact .wrblk hr hw
    · exact .wrblkFails hr hw
  · intro h
    cases h with
    | rdblk hread => exact exec_rdblk_of_block hread
    | rdblkFails hread => exact exec_rdblk_of_failure hread
    | decode hraw => exact exec_decode_of_raw hraw
    | chkosc hf hosc => exact exec_chkosc_of_running hf hosc
    | chkoscFails hf hosc => exact exec_chkosc_of_stopped hf hosc
    | tocal hf => exact exec_tocal_of_f hf
    | chkcal hc hok => exact exec_chkcal_of_pass hc hok
    | chkcalFails hc hok => exact exec_chkcal_of_failure hc hok
    | hpush hc hts => exact exec_hpush_of_ts hc hts
    | hget hvalid => exact exec_hget_of_valid hvalid
    | hgetFails hvalid => exact exec_hget_of_invalid hvalid
    | fromcal hc haccepted => exact exec_fromcal_of_accepted hc haccepted
    | encode hf => exact exec_encode_of_f hf
    | wrblk hraw hw => exact exec_wrblk_of_success hraw hw
    | wrblkFails hraw hw => exact exec_wrblk_of_failure hraw hw

/-- An operation that goes on has either raised one of its own errors or left the sequence as it was; then no error
stands, or the operation begins no transaction and has kept `ERR`. -/
theorem exec_raises_or_keeps {i : Instr} {s t : State} (h : exec i s = .next t) :
    (∃ e u, t = raise e u ∧
      ((e = .transportError ∧ (i = .rdblk ∨ i = .wrblk)) ∨ (e = .clockHalted ∧ i = .chkosc) ∨
        (e = .invalidCalendar ∧ i = .chkcal) ∨ (e = .hostClockInvalid ∧ i = .hget))) ∨
    (t.seq = s.seq ∧ (t.err = none ∨ (i ≠ .rdblk ∧ i ≠ .hget ∧ t.err = s.err))) := by
  cases exec_next_iff.mp h with
  | rdblkFails => exact .inl ⟨_, _, rfl, .inl ⟨rfl, .inl rfl⟩⟩
  | wrblkFails => exact .inl ⟨_, _, rfl, .inl ⟨rfl, .inr rfl⟩⟩
  | chkoscFails => exact .inl ⟨_, _, rfl, .inr (.inl ⟨rfl, rfl⟩)⟩
  | chkcalFails => exact .inl ⟨_, _, rfl, .inr (.inr (.inl ⟨rfl, rfl⟩))⟩
  | hgetFails => exact .inl ⟨_, _, rfl, .inr (.inr (.inr ⟨rfl, rfl⟩))⟩
  | rdblk | hget => exact .inr ⟨rfl, .inl rfl⟩
  | decode | chkosc | tocal | chkcal | hpush | fromcal | encode | wrblk =>
    exact .inr ⟨rfl, .inr ⟨nofun, nofun, rfl⟩⟩

/-- The device's registers are `WRBLK`'s alone to change. -/
theorem exec_dev {i : Instr} {s t : State} (h : exec i s = .next t) (hi : i ≠ .wrblk) : t.dev = s.dev := by
  cases exec_next_iff.mp h with
  | wrblk | wrblkFails => exact absurd rfl hi
  | _ => rfl

/-- `WRBLK` writes a block at `BLOCK_ADDR`: the one it holds, or what a failed write leaves there. -/
theorem exec_wrblk_dev {s t : State} (h : exec .wrblk s = .next t) :
    ∃ r, t.dev = Memory.writeRun s.dev Config.blockAddr.toNat (blockBytes r) := by
  cases exec_next_iff.mp h <;> exact ⟨_, rfl⟩

/-! ### The groups without a value -/

theorem groupsClear_iff {s : State} : groupsClear s = true ↔ s.raw = none ∧ s.f = none ∧ s.c = none := by
  simp [groupsClear, State.rawW, State.fW, State.cW, and_assoc]

@[simp] theorem groupsClear_raise (e : SyncError) (s : State) : groupsClear (raise e s) = true := rfl

/-- With no group holding a value every operation but the two that begin a transaction lacks its operand. -/
theorem exec_refused_of_groupsClear {s : State} {i : Instr} (h : groupsClear s = true) (hr : i ≠ .rdblk)
    (hh : i ≠ .hget) : ∃ g, exec i s = .refused (.unwritten g) := by
  obtain ⟨hraw, hf, hc⟩ := groupsClear_iff.mp h
  cases i with
  | rdblk => exact absurd rfl hr
  | hget => exact absurd rfl hh
  | decode => exact ⟨_, exec_decode_unwritten hraw⟩
  | wrblk => exact ⟨_, exec_wrblk_unwritten hraw⟩
  | chkosc => exact ⟨_, exec_chkosc_unwritten hf⟩
  | tocal => exact ⟨_, exec_tocal_unwritten hf⟩
  | encode => exact ⟨_, exec_encode_unwritten hf⟩
  | chkcal => exact ⟨_, exec_chkcal_unwritten hc⟩
  | hpush => exact ⟨_, exec_hpush_unwritten hc⟩
  | fromcal => exact ⟨_, exec_fromcal_unwritten hc⟩

/-- Settles O7: `RDBLK` and `HGET` are accepted in every state, and the others have no operand here. -/
theorem onlyTransactionStartersRunUnwritten : Obligations.OnlyTransactionStartersRunUnwritten := by
  intro s i hclear
  constructor
  · rintro ⟨t, hnext⟩
    by_contra hi
    obtain ⟨hr, hh⟩ := not_or.mp hi
    obtain ⟨g, hrefused⟩ := exec_refused_of_groupsClear hclear hr hh
    rw [hrefused] at hnext
    cases hnext
  · rintro (rfl | rfl)
    · exact (exec_rdblk_accepted s).imp fun _ h => h.1
    · exact (exec_hget_accepted s).imp fun _ h => h.1

/-- Settles O49: by the invariant no group holds a value while an error stands. -/
theorem noSecondErrorWhileOneStands : Obligations.NoSecondErrorWhileOneStands := by
  intro s e i hinv herr hr hh
  exact exec_refused_of_groupsClear (hinv.errClear (by simp [herr])) hr hh

end Sys2Proof.Machine
end

section
/-! PROOFS. The invariant of spec/60_exceptions.md sections 1 to 3: it holds at reset, and the moves of the world, the
caller and every operation keep it. -/

namespace Sys2Proof.Machine

open Sys2Proof.Safety

/-! ### The device's registers under a write of seven bytes -/

theorem Memory_writeBlock_wf {m : Memory} (r : RawBlock) (h : Memory.wf m) :
    Memory.wf (Memory.writeRun m Config.blockAddr.toNat (blockBytes r)) :=
  Memory_writeRun_wf (by decide) (by rw [blockBytes_length]; decide) h

/-- A state whose registers are those of `s`, or have a block written over them, keeps what the invariant says of
them. -/
theorem inv_dev_of_write {s : State} {m : Memory} (h : Inv s)
    (hm : m = s.dev ∨ ∃ r, m = Memory.writeRun s.dev Config.blockAddr.toNat (blockBytes r)) :
    Memory.wf m ∧ ∀ k, k < Config.blockLen → (Memory.read m (Config.blockAddr.toNat + k)).isSome = true := by
  rcases hm with rfl | ⟨r, rfl⟩
  · exact ⟨h.devWf, h.devHeld⟩
  · exact ⟨Memory_writeBlock_wf r h.devWf, fun k hk => Memory_writeRun_isSome _ (h.devHeld k hk)⟩

/-! ### The invariant, part by part -/

theorem inv_reset : Inv State.reset where
  devWf := State_reset_dev_wf
  devHeld k hk := by
    have hread := Memory_read_writeRun_inside [] 2 (blockBytes Config.resetDevice) k hk
    rw [← Memory_ofBlock_eq] at hread
    exact Option.isSome_of_eq_some hread
  errClear _ := rfl
  haltedIff := by decide

theorem inv_worldMove {s : State} (h : Inv s) : Inv (worldMove s) :=
  have ⟨hwf, hheld⟩ := inv_dev_of_write h (m := (worldMove s).dev) (.inr ⟨_, rfl⟩)
  ⟨hwf, hheld, h.errClear, h.haltedIff⟩

theorem inv_callerAct {s : State} (h : Inv s) : Inv (callerAct s) := by
  rcases callerAct_cases s with ⟨-, hact⟩ | ⟨ops, q, -, hact⟩ | ⟨q, -, hact⟩ <;> rw [hact]
  · exact h
  · exact ⟨h.devWf, h.devHeld, h.errClear, h.haltedIff⟩
  · exact ⟨h.devWf, h.devHeld, fun _ => rfl, by simp⟩

/-- An operation other than the two that begin a transaction goes on only while no error stands. -/
theorem inv_no_error_of_exec {i : Instr} {s t : State} (h : Inv s) (hx : exec i s = .next t) (hr : i ≠ .rdblk)
    (hh : i ≠ .hget) : s.err = none ∧ s.halted = false := by
  have herr : s.err = none := by
    by_contra herr
    obtain ⟨g, hrefused⟩ := exec_refused_of_groupsClear (h.errClear herr) hr hh
    rw [hrefused] at hx
    cases hx
  refine ⟨herr, Bool.eq_false_iff.mpr fun hhalted => ?_⟩
  rw [h.haltedIff, herr] at hhalted
  cases hhalted

theorem inv_exec_errClear {i : Instr} {s t : State} (h : Inv s) (hx : exec i s = .next t) (herr : t.err ≠ none) :
    groupsClear t = true := by
  rcases exec_raises_or_keeps hx with ⟨e, u, rfl, -⟩ | ⟨-, hnone | ⟨hr, hh, hkeeps⟩⟩
  · exact groupsClear_raise e u
  · exact absurd hnone herr
  · exact absurd (hkeeps.trans (inv_no_error_of_exec h hx hr hh).1) herr

/-- Only `CHKOSC` sets `ST.halted`, and only when it raises ClockHalted; the others clear it or meet it clear. -/
theorem inv_exec_haltedIff {i : Instr} {s t : State} (h : Inv s) (hx : exec i s = .next t) :
    t.halted = true ↔ t.err = some .clockHalted := by
  have hclean := inv_no_error_of_exec h hx
  cases exec_next_iff.mp hx with
  | rdblk | rdblkFails | hget | hgetFails | chkoscFails => simp
  | decode | chkosc | tocal | chkcal | chkcalFails | hpush | fromcal | encode | wrblk | wrblkFails =>
    obtain ⟨herr, hhalted⟩ := hclean nofun nofun
    simp [herr, hhalted]

theorem inv_exec {i : Instr} {s t : State} (h : Inv s) (hx : exec i s = .next t) : Inv t := by
  have hdev : t.dev = s.dev ∨ ∃ r, t.dev = Memory.writeRun s.dev Config.blockAddr.toNat (blockBytes r) := by
    by_cases hi : i = .wrblk
    · subst hi
      exact .inr (exec_wrblk_dev hx)
    · exact .inl (exec_dev hx hi)
  obtain ⟨hwf, hheld⟩ := inv_dev_of_write h hdev
  exact ⟨hwf, hheld, inv_exec_errClear h hx, inv_exec_haltedIff h hx⟩

/-- Settles O52: reset's registers hold a block, and no error stands. -/
theorem resetMeetsInvariant : Obligations.ResetMeetsInvariant := inv_reset

/-- Settles O53: a step is a move of the world, which keeps the invariant, then an act of the caller or an operation. -/
theorem stepKeepsInvariant : Obligations.StepKeepsInvariant := by
  intro s t h hstep
  have hmove := inv_worldMove h
  rcases step_cases hstep with ⟨-, rfl⟩ | ⟨w, ws, i, -, -, hexec⟩
  · exact inv_callerAct hmove
  · refine inv_exec ?_ hexec
    exact ⟨hmove.devWf, hmove.devHeld, hmove.errClear, hmove.haltedIff⟩

end Sys2Proof.Machine
end

section
/-! PROOFS. The operation select and the step: the decoder and the encoder, the word a step runs, the caller between two
sequences, and reset. -/

namespace Sys2Proof.Machine

open Sys2Proof.Safety

/-! ### The operation select (spec/30_encoding.md R45, R46) -/

@[simp] theorem decode_encode (i : Instr) : decode (encode i) = .ok i := by
  cases i <;> rfl

theorem encode_of_decode {w : OpWord} {i : Instr} (h : decode w = .ok i) : encode i = w := by
  unfold decode at h
  split at h <;> cases h <;> rfl

/-- Settles O1: each number is the one `encode` gives. -/
theorem operationNumbersDecode : Obligations.OperationNumbersDecode :=
  ⟨decode_encode .rdblk, decode_encode .decode, decode_encode .chkosc, decode_encode .tocal, decode_encode .chkcal,
    decode_encode .hpush, decode_encode .hget, decode_encode .fromcal, decode_encode .encode, decode_encode .wrblk⟩

/-- Settles O2: the decoder and the encoder undo each other. -/
theorem decodeEncodeAgree : Obligations.DecodeEncodeAgree :=
  fun i _ _ => ⟨encode_of_decode, fun h => h ▸ decode_encode i⟩

/-! ### One step -/

theorem step_of_cons {s : State} {w : OpWord} {ws : List OpWord} (h : s.seq = w :: ws) :
    step s = runWord w { worldMove s with seq := ws } := by
  simp only [step, fetch_cons (s := worldMove s) h]

theorem step_of_nil {s : State} (h : s.seq = []) : step s = .next (callerAct (worldMove s)) := by
  simp only [step, fetch_nil (s := worldMove s) h]

theorem runWord_of_decode {w : OpWord} {i : Instr} (h : decode w = .ok i) (s : State) : runWord w s = exec i s := by
  simp only [runWord, h]

theorem runWord_of_reserved {w v : OpWord} (h : decode w = .error (.reserved v)) (s : State) :
    runWord w s = .refused (.reservedNumber v) := by
  simp only [runWord, h]

/-- Settles O3: the decoder rejects each of the six. -/
theorem reservedNumbersRefused : Obligations.ReservedNumbersRefused := by
  intro s w ws hseq hw
  rw [step_of_cons hseq]
  apply runWord_of_reserved
  rcases hw with rfl | rfl | rfl | rfl | rfl | rfl <;> rfl

/-- Settles O4: the word taken from the sequence is decoded and its operation run. -/
theorem stepRunsDecodedOperation : Obligations.StepRunsDecodedOperation :=
  fun _ _ _ _ hseq hdecode => (step_of_cons hseq).trans (runWord_of_decode hdecode _)

/-! ### The caller between two sequences (assumption 6) -/

theorem callerAct_of_wait {s : State} (h : s.queue = []) : callerAct s = s := by
  simp only [callerAct, h]

theorem callerAct_of_run {s : State} {ops : List OpWord} {q : List CallerAct} (h : s.queue = .run ops :: q) :
    callerAct s = { s with seq := ops, queue := q } := by
  simp only [callerAct, h]

theorem callerAct_of_reset {s : State} {q : List CallerAct} (h : s.queue = .reset :: q) :
    callerAct s = { clearBlock s with queue := q } := by
  simp only [callerAct, h]

/-- Whatever the caller does leaves the device, the parameters and the calls made as they were. -/
theorem callerAct_frame (s : State) :
    (callerAct s).dev = s.dev ∧ (callerAct s).params = s.params ∧ (callerAct s).calls = s.calls := by
  rcases callerAct_cases s with ⟨-, h⟩ | ⟨ops, q, -, h⟩ | ⟨q, -, h⟩ <;> rw [h] <;> exact ⟨rfl, rfl, rfl⟩

/-- Settles O5: by the head of the caller's queue. -/
theorem callerActsBetweenSequences : Obligations.CallerActsBetweenSequences := by
  intro s hseq
  rw [step_of_nil hseq]
  refine ⟨fun hq => ?_, fun ops q hq => ?_, fun q hq => ?_⟩
  · rw [callerAct_of_wait (s := worldMove s) hq]
  · rw [callerAct_of_run (s := worldMove s) hq]
  · rw [callerAct_of_reset (s := worldMove s) hq]
    exact ⟨_, rfl, rfl, hseq, rfl, rfl, rfl⟩

/-! ### Reset (spec/70_reset_and_hazards.md R114) -/

theorem blockClear_clearBlock (s : State) : blockClear (clearBlock s) = true := rfl

theorem sameOutside_clearBlock (s : State) : sameOutside (clearBlock s) s :=
  ⟨rfl, rfl, rfl, rfl, rfl, rfl, rfl, rfl, rfl, rfl, rfl⟩

/-- Settles O6: reset's own fields, and what `clearBlock` clears and leaves. -/
theorem resetLeavesBlockClear : Obligations.ResetLeavesBlockClear :=
  ⟨rfl, rfl, rfl, rfl, rfl, rfl, rfl, fun s => ⟨blockClear_clearBlock s, sameOutside_clearBlock s⟩⟩

end Sys2Proof.Machine
end

section
/-! PROOFS. The frame of the operations (spec/10_state.md section 12): when each completes, which groups, flags, calls and
parts of the outside it may change, and which error it may raise. -/

namespace Sys2Proof.Machine

open Sys2Proof.Safety

/-! ### The `require` clauses (spec/10_state.md R27) -/

/-- Settles O8: by the operation, and by what its group holds. -/
theorem completesExactlyWhenRequired : Obligations.CompletesExactlyWhenRequired := by
  intro i s
  cases i with
  | rdblk => exact ⟨fun _ => (exec_rdblk_accepted s).imp fun _ h => h.1, nofun⟩
  | hget => exact ⟨fun _ => (exec_hget_accepted s).imp fun _ h => h.1, nofun⟩
  | decode =>
    cases hraw : s.raw with
    | none => simp [accepts, State.rawW, hraw, exec_decode_unwritten hraw]
    | some r => simp [accepts, State.rawW, hraw, exec_decode_of_raw hraw]
  | chkosc =>
    cases hf : s.f with
    | none => simp [accepts, State.fW, hf, exec_chkosc_unwritten hf]
    | some f =>
      cases hosc : oscStopped f with
      | true => simp [accepts, State.fW, hf, exec_chkosc_of_stopped hf hosc]
      | false => simp [accepts, State.fW, hf, exec_chkosc_of_running hf hosc]
  | tocal =>
    cases hf : s.f with
    | none => simp [accepts, State.fW, hf, exec_tocal_unwritten hf]
    | some f => simp [accepts, State.fW, hf, exec_tocal_of_f hf]
  | chkcal =>
    cases hc : s.c with
    | none => simp [accepts, State.cW, hc, exec_chkcal_unwritten hc]
    | some c =>
      cases hok : calendarOk s.params c with
      | true => simp [accepts, State.cW, hc, exec_chkcal_of_pass hc hok]
      | false => simp [accepts, State.cW, hc, exec_chkcal_of_failure hc hok]
  | hpush =>
    cases hc : s.c with
    | none => simp [accepts, State.cW, hc, exec_hpush_unwritten hc]
    | some c =>
      cases hts : c.ts with
      | none => simp [accepts, State.cW, State.cValid, Calendar.valid, hc, hts, exec_hpush_notValid hc hts]
      | some x => simp [accepts, State.cW, State.cValid, Calendar.valid, hc, hts, exec_hpush_of_ts hc hts]
  | fromcal =>
    cases hc : s.c with
    | none => simp [accepts, State.cW, hc, exec_fromcal_unwritten hc]
    | some c =>
      cases ho : s.params.fromcalOor with
      | truncate => simp [accepts, State.cW, hc, ho, exec_fromcal_of_truncate hc ho]
      | refuse =>
        cases hr : calInRange c with
        | true => simp [accepts, State.cW, hc, ho, hr, exec_fromcal_of_inRange hc hr]
        | false => simp [accepts, State.cW, hc, ho, hr, exec_fromcal_outOfRange hc ho hr]
  | encode =>
    cases hf : s.f with
    | none => simp [accepts, State.fW, hf, exec_encode_unwritten hf]
    | some f => simp [accepts, State.fW, hf, exec_encode_of_f hf]
  | wrblk =>
    cases hraw : s.raw with
    | none => simp [accepts, State.rawW, hraw, exec_wrblk_unwritten hraw]
    | some r =>
      cases hw : writeAnswer s with
      | true => simp [accepts, State.rawW, hraw, exec_wrblk_of_success hraw hw]
      | false => simp [accepts, State.rawW, hraw, exec_wrblk_of_failure hraw hw]

/-! ### The two operations that begin a transaction -/

/-- The cleared block is a function of what lies outside the block. -/
theorem clearBlock_congr {s s' : State} (h : sameOutside s s') : clearBlock s = clearBlock s' := by
  obtain ⟨hdev, hhost, hparams, hseq, hqueue, hreads, hwrites, hhosts, hmoves, hdraws, hcalls⟩ := h
  simp only [clearBlock, hdev, hhost, hparams, hseq, hqueue, hreads, hwrites, hhosts, hmoves, hdraws, hcalls]

theorem exec_rdblk_clearBlock (s : State) : exec .rdblk (clearBlock s) = exec .rdblk s := rfl

theorem exec_hget_clearBlock (s : State) : exec .hget (clearBlock s) = exec .hget s := rfl

/-- Settles O9: both operations see the cleared block only. -/
theorem transactionForgetsBlock : Obligations.TransactionForgetsBlock := by
  intro s s' h
  have hclear := clearBlock_congr h
  exact ⟨by rw [← exec_rdblk_clearBlock s, hclear, exec_rdblk_clearBlock],
    by rw [← exec_hget_clearBlock s, hclear, exec_hget_clearBlock]⟩

theorem exec_rdblk_groups {s t : State} (h : exec .rdblk s = .next t) : t.f = none ∧ t.c = none := by
  cases exec_next_iff.mp h <;> exact ⟨rfl, rfl⟩

theorem exec_hget_groups {s t : State} (h : exec .hget s = .next t) : t.raw = none ∧ t.f = none := by
  cases exec_next_iff.mp h <;> exact ⟨rfl, rfl⟩

/-- Settles O59: `HGET` leaves `RAW` and `F` without a value, `RDBLK` leaves `F` and `C`. -/
theorem newTransactionLeavesOtherGroupsUnwritten : Obligations.NewTransactionLeavesOtherGroupsUnwritten := by
  constructor
  · intro s t hget i hi
    obtain ⟨hraw, hf⟩ := exec_hget_groups hget
    rcases hi with rfl | rfl | rfl | rfl | rfl
    · exact ⟨_, exec_decode_unwritten hraw⟩
    · exact ⟨_, exec_chkosc_unwritten hf⟩
    · exact ⟨_, exec_tocal_unwritten hf⟩
    · exact ⟨_, exec_encode_unwritten hf⟩
    · exact ⟨_, exec_wrblk_unwritten hraw⟩
  · intro s t hrdblk i hi
    obtain ⟨hf, hc⟩ := exec_rdblk_groups hrdblk
    rcases hi with rfl | rfl | rfl | rfl | rfl | rfl
    · exact ⟨_, exec_chkosc_unwritten hf⟩
    · exact ⟨_, exec_tocal_unwritten hf⟩
    · exact ⟨_, exec_chkcal_unwritten hc⟩
    · exact ⟨_, exec_hpush_unwritten hc⟩
    · exact ⟨_, exec_fromcal_unwritten hc⟩
    · exact ⟨_, exec_encode_unwritten hf⟩

/-! ### The groups and the flags -/

/-- Settles O44: a raise clears the three groups, the beginning of a transaction clears those it does not write, and the
other operations keep what they do not write. -/
theorem groupsWrittenByTheirOperations : Obligations.GroupsWrittenByTheirOperations := by
  intro i s t h
  cases exec_next_iff.mp h with
  | rdblk | rdblkFails | hget | hgetFails | chkoscFails | chkcalFails | wrblkFails => simp
  | decode | chkosc | tocal | chkcal | hpush | fromcal | encode | wrblk => simp

theorem oscStopped_iff (f : Fields) : oscStopped f = true ↔ f.vl = 1#1 := by
  simp [oscStopped]

/-- Settles O45: by the outcome of the operation. -/
theorem flagsWrittenByTheirChecks : Obligations.FlagsWrittenByTheirChecks := by
  intro i s t h
  cases exec_next_iff.mp h with
  | chkosc hf hosc | chkoscFails hf hosc => simp [hf, ← oscStopped_iff, hosc]
  | chkcal hc hok | chkcalFails hc hok => simp [hc, hok]
  | rdblk | rdblkFails | hget | hgetFails => simp
  | decode | tocal | hpush | fromcal | encode | wrblk | wrblkFails => simp

/-- Settles O15: `raise` is what the set VL leads to. -/
theorem chkoscReportsOscillator : Obligations.ChkoscReportsOscillator := by
  refine ⟨fun s f hf hvl => ?_, fun s f hf hvl => ?_, fun s hf => exec_chkosc_unwritten hf⟩
  · exact exec_chkosc_of_stopped hf ((oscStopped_iff f).mpr hvl)
  · exact exec_chkosc_of_running hf (by simp [oscStopped, hvl])

/-! ### The calls to the ports -/

/-- Settles O41: the four operations that call a port, one call each. -/
theorem portCallsHaveOneShape : Obligations.PortCallsHaveOneShape := by
  intro i s t h
  cases exec_next_iff.mp h with
  | rdblk | rdblkFails => exact .inr ⟨.memRead _ _, rfl, by decide, rfl⟩
  | wrblk | wrblkFails => exact .inr ⟨.memWrite _ _, rfl, by simp [allowedCall], rfl⟩
  | hget | hgetFails => exact .inr ⟨.hostGet, rfl, rfl, rfl⟩
  | hpush => exact .inr ⟨.hostSet _, rfl, rfl, rfl⟩
  | decode | chkosc | chkoscFails | tocal | chkcal | chkcalFails | fromcal | encode => exact .inl rfl

/-- Settles O42: the one operation that calls `HostSet` is `HPUSH`, which takes the timestamp from `C`. -/
theorem hostReceivesOnlyValidTimestamps : Obligations.HostReceivesOnlyValidTimestamps := by
  intro i s t x h hcalls
  rcases portCallsHaveOneShape i s t h with hkept | ⟨k, hk, -, hshape⟩
  · simp [hkept] at hcalls
  · obtain ⟨rfl, -⟩ := List.cons.inj (hk.symm.trans hcalls)
    obtain rfl : i = .hpush := hshape
    obtain ⟨c, y, hc, hts, rfl⟩ := exec_hpush_next h
    obtain rfl : y = x := by simpa using hcalls
    exact ⟨c, hc, by simp [Calendar.valid, hts], hts, rfl⟩

/-- Settles O43: by the outcome of the operation; a port's answer is taken from its own list. -/
theorem operationsFrameTheOutside : Obligations.OperationsFrameTheOutside := by
  intro i s t h
  refine ⟨fun hi a => by rw [exec_dev h hi], ?_⟩
  cases exec_next_iff.mp h with
  | rdblk | rdblkFails | wrblk | wrblkFails | hget | hgetFails | hpush => simp
  | decode | chkosc | chkoscFails | tocal | chkcal | chkcalFails | fromcal | encode => simp

/-- Settles O38: the answer is the head of its list, and the operation leaves the tail. -/
theorem portAnswersAreTaken : Obligations.PortAnswersAreTaken := by
  refine fun s => ⟨fun a as hreads => ⟨by simp [readAnswer, hreads], ?_⟩,
    fun h hs hhosts => ⟨by simp [hostAnswer, hhosts], ?_⟩,
    fun b bs hwrites hraw => ⟨by simp [writeAnswer, hwrites], ?_⟩⟩
  · obtain ⟨t, ht, -⟩ := exec_rdblk_accepted s
    refine ⟨t, ht, ?_⟩
    cases exec_next_iff.mp ht <;> simp [hreads]
  · obtain ⟨t, ht, -⟩ := exec_hget_accepted s
    refine ⟨t, ht, ?_⟩
    cases exec_next_iff.mp ht <;> simp [hhosts]
  · obtain ⟨t, ht⟩ := (completesExactlyWhenRequired .wrblk s).1 hraw
    refine ⟨t, ht, ?_⟩
    cases exec_next_iff.mp ht <;> simp [hwrites]

/-- Settles O39: by what `C` and its timestamp hold. -/
theorem hpushSendsTimestamp : Obligations.HpushSendsTimestamp :=
  ⟨fun _ _ _ hc hts => exec_hpush_of_ts hc hts,
    fun _ _ hc hvalid => exec_hpush_notValid hc (by simpa [Calendar.valid] using hvalid),
    fun _ hc => exec_hpush_unwritten hc⟩

/-! ### The errors -/

/-- Settles O46: `raise` is that update of the state, and the codes are those of the table. -/
theorem raiseEntersError : Obligations.RaiseEntersError :=
  fun e s => ⟨rfl, groupsClear_raise e s, rfl, rfl, rfl, rfl, rfl⟩

theorem errCode_lt_five (s : State) : s.errCode.toNat < 5 := by
  unfold State.errCode
  split
  · decide
  · rename_i e _
    cases e <;> decide

/-- Settles O47: an operation that goes on has raised one of its own errors, or no error stands after it. -/
theorem errorsRaisedByTheirOperations : Obligations.ErrorsRaisedByTheirOperations := by
  constructor
  · intro s
    have hlt := errCode_lt_five s
    refine ⟨?_, ?_, ?_⟩ <;> intro h <;> simp [h] at hlt
  · intro i s t h hbefore
    rcases exec_raises_or_keeps h with ⟨e, u, rfl, hraise⟩ | ⟨-, hnone | ⟨hr, hh, hkeeps⟩⟩
    · rw [raise_err]
      rcases hraise with ⟨rfl, hi⟩ | ⟨rfl, hi⟩ | ⟨rfl, hi⟩ | ⟨rfl, hi⟩ <;> simp [hi]
    · simp [hnone]
    · simp [hkeeps, hbefore.resolve_right (not_or.mpr ⟨hr, hh⟩)]

/-- Settles O50: a raise empties the sequence and clears the groups; without one the sequence stays. -/
theorem sequenceEndsAtRaise : Obligations.SequenceEndsAtRaise := by
  intro i s t h hbefore
  rcases exec_raises_or_keeps h with ⟨e, u, rfl, -⟩ | ⟨hseq, hnone | ⟨hr, hh, hkeeps⟩⟩
  · exact ⟨fun _ => ⟨raise_seq e u, groupsClear_raise e u⟩, fun hnone => by simp at hnone⟩
  · exact ⟨fun herr => absurd hnone herr, fun _ => hseq⟩
  · have hnone := hkeeps.trans (hbefore.resolve_right (not_or.mpr ⟨hr, hh⟩))
    exact ⟨fun herr => absurd hnone herr, fun _ => hseq⟩

/-! ### The parameters and the calls over a step -/

theorem exec_params {i : Instr} {s t : State} (h : exec i s = .next t) : t.params = s.params := by
  obtain ⟨-, -, -, -, -, -, hparams, -, -⟩ := operationsFrameTheOutside i s t h
  exact hparams

/-- Settles O54: neither the world's move nor the caller calls a port or changes a parameter. -/
theorem stepKeepsParametersAndHistory : Obligations.StepKeepsParametersAndHistory := by
  intro s t h
  rcases step_cases h with ⟨-, rfl⟩ | ⟨w, ws, i, -, -, hexec⟩
  · obtain ⟨-, hparams, hcalls⟩ := callerAct_frame (worldMove s)
    exact ⟨hparams, .inl hcalls⟩
  · refine ⟨(exec_params hexec).trans (worldMove_params s), (portCallsHaveOneShape i _ t hexec).imp_right ?_⟩
    rintro ⟨k, hcalls, hallowed, -⟩
    exact ⟨k, hcalls, hallowed⟩

end Sys2Proof.Machine
end

section
/-! PROOFS. The device's registers (spec/20_memory.md): what a write of a block leaves in them, `WRBLK` by its answer, and
the VL flag over a step. -/

namespace Sys2Proof.Machine

open Sys2Proof.Safety

/-! ### A block written at `BLOCK_ADDR` -/

theorem Memory_read_writeBlock (m : Memory) (r : RawBlock) {k : Nat} (hk : k < (blockBytes r).length) :
    Memory.read (Memory.writeRun m Config.blockAddr.toNat (blockBytes r)) (Config.blockAddr.toNat + k) =
      some (blockBytes r)[k] :=
  Memory_read_writeRun_inside m _ _ k hk

theorem Memory_read_writeBlock_outside (m : Memory) (r : RawBlock) {a : Nat}
    (h : a < Config.blockAddr.toNat ∨ Config.blockAddr.toNat + 7 ≤ a) :
    Memory.read (Memory.writeRun m Config.blockAddr.toNat (blockBytes r)) a = Memory.read m a :=
  Memory_read_writeRun_outside m _ h

/-- VL of the device is bit 7 of the seconds byte written last. -/
theorem deviceVl_writeBlock (m : Memory) (r : RawBlock) :
    deviceVl (Memory.writeRun m Config.blockAddr.toNat (blockBytes r)) = some (r.b0.getLsbD 7) := by
  have hread := Memory_read_writeBlock m r (k := 0) (by simp)
  exact congrArg (Option.map fun b => b.getLsbD 7) hread

/-! ### Bit 7 of the seconds byte (spec/10_state.md R20) -/

theorem Byte_bit7_clear_iff (b : Byte) : b.getLsbD 7 = false ↔ b.toNat < 128 := by
  revert b; decide

theorem Byte_bit7_set_iff (b : Byte) : b.getLsbD 7 = true ↔ 128 ≤ b.toNat := by
  rw [← Bool.not_eq_false, Byte_bit7_clear_iff, Nat.not_lt]

/-- A byte written while VL is set is held as written. -/
theorem writtenVl_of_set {m : Memory} (b : Byte) (free : Bool) (h : deviceVl m = some true) : writtenVl m b free = b := by
  simp [writtenVl, h]

theorem writtenVl_toNat_low (m : Memory) (b : Byte) (free : Bool) :
    (writtenVl m b free).toNat % 128 = b.toNat % 128 := by
  unfold writtenVl
  split
  · exact withBit7_toNat_low b free
  · rfl

/-! ### `WRBLK` (spec/43_ports.md R83) -/

theorem afterMemWrite_dev_of_success {s : State} (a : Byte) (r : RawBlock) (h : writeAnswer s = true) :
    (afterMemWrite a r s).dev =
      Memory.writeRun s.dev a.toNat (blockBytes (heldBlock s.dev r (Config.freeVl s.draws))) := by
  rw [afterMemWrite_dev, if_pos h]

/-- Settles O35: the device holds the block written, whose first byte may differ in bit 7 only. -/
theorem wrblkStoresBlock : Obligations.WrblkStoresBlock := by
  refine ⟨fun s r hraw hw => ⟨_, exec_wrblk_of_success hraw hw, rfl, ?_⟩, fun s hraw => exec_wrblk_unwritten hraw⟩
  rw [afterMemWrite_dev_of_success _ _ hw]
  have hread := fun k hk => Memory_read_writeBlock s.dev (heldBlock s.dev r (Config.freeVl s.draws)) (k := k) hk
  refine ⟨fun a ha => Memory_read_writeBlock_outside _ _ ha, hread 1 (by simp), hread 2 (by simp), hread 3 (by simp),
    hread 4 (by simp), hread 5 (by simp), hread 6 (by simp), _, hread 0 (by simp), writtenVl_toNat_low _ _ _, ?_⟩
  rintro (hlow | hset)
  · exact writtenVl_of_clear _ _ ((Byte_bit7_clear_iff _).mpr hlow)
  · exact writtenVl_of_set _ _ hset

/-- Settles O36: a failed write leaves some block at the seven addresses, and the raise does the rest. -/
theorem wrblkFailureRaises : Obligations.WrblkFailureRaises :=
  fun _ _ hraw hw => ⟨_, exec_wrblk_of_failure hraw hw, rfl, fun _ ha => Memory_read_writeBlock_outside _ _ ha⟩

/-! ### VL over a step -/

theorem deviceVl_worldMove {s : State} (h : deviceVl s.dev = some true) : deviceVl (worldMove s).dev = some true := by
  rw [worldMove_dev, deviceVl_writeBlock]
  simp [stickyVl, h]

theorem exec_wrblk_calls {s t : State} (h : exec .wrblk s = .next t) :
    ∃ b, t.calls = .memWrite Config.blockAddr b :: s.calls := by
  cases exec_next_iff.mp h <;> exact ⟨_, rfl⟩

/-- After a successful write VL stands as it was written where that was 0, or where VL was set already. -/
theorem deviceVl_heldBlock {m : Memory} {r : RawBlock} (free : Bool)
    (h : r.b0.toNat < 128 ∨ deviceVl m = some true) :
    deviceVl (Memory.writeRun m Config.blockAddr.toNat (blockBytes (heldBlock m r free))) = some (r.b0.getLsbD 7) := by
  rw [deviceVl_writeBlock]
  rcases h with hlow | hset
  · rw [heldBlock_of_clear _ _ ((Byte_bit7_clear_iff _).mpr hlow)]
  · rw [heldBlock, writtenVl_of_set _ _ hset]

/-- Settles O55: the world's move keeps a set VL, the caller and every operation but `WRBLK` leave the device alone, and
`WRBLK` leaves the VL it wrote. -/
theorem vlStaysSetUntilWritten : Obligations.VlStaysSetUntilWritten := by
  constructor
  · intro s t hvl hstep
    have hmove := deviceVl_worldMove hvl
    rcases step_cases hstep with ⟨-, rfl⟩ | ⟨w, ws, i, -, -, hexec⟩
    · obtain ⟨hdev, -, -⟩ := callerAct_frame (worldMove s)
      exact .inl (hdev ▸ hmove)
    · by_cases hi : i = .wrblk
      · subst hi
        obtain ⟨b, hcalls⟩ := exec_wrblk_calls hexec
        exact .inr ⟨b, hcalls⟩
      · exact .inl (exec_dev hexec hi ▸ hmove)
  · intro s r hraw hw
    refine ⟨_, exec_wrblk_of_success hraw hw, fun hlow => ?_, fun hhigh hset => ?_⟩
    · rw [afterMemWrite_dev_of_success _ _ hw, deviceVl_heldBlock _ (.inl hlow), (Byte_bit7_clear_iff _).mpr hlow]
    · rw [afterMemWrite_dev_of_success _ _ hw, deviceVl_heldBlock _ (.inr hset), (Byte_bit7_set_iff _).mpr hhigh]

end Sys2Proof.Machine
end

section
/-! PROOFS. The register codec, the other half (spec/40_codec.md R60 to R62): the bytes of `Encode` as numbers, `ENCODE`,
and the two round trips. -/

namespace Sys2Proof.Machine

/-! ### `Encode`, byte by byte (spec/40_codec.md R60) -/

/-- A concatenation is the upper part shifted over the lower one. -/
theorem append_toNat {m n : Nat} (x : BitVec m) (y : BitVec n) : (x ++ y).toNat = x.toNat * 2 ^ n + y.toNat := by
  rw [BitVec.toNat_append, ← Nat.shiftLeft_add_eq_or_of_lt y.isLt, Nat.shiftLeft_eq]

theorem encodeBlock_b0 (f : Fields) :
    (encodeBlock f).b0.toNat = f.vl.toNat * 128 + f.secTens.toNat * 16 + f.secUnits.toNat := by
  simp only [encodeBlock, append_toNat]
  omega

theorem encodeBlock_b1 (f : Fields) : (encodeBlock f).b1.toNat = f.minTens.toNat * 16 + f.minUnits.toNat := by
  simp only [encodeBlock, append_toNat, BitVec.toNat_ofNat]
  omega

theorem encodeBlock_b2 (f : Fields) : (encodeBlock f).b2.toNat = f.hourTens.toNat * 16 + f.hourUnits.toNat := by
  simp only [encodeBlock, append_toNat, BitVec.toNat_ofNat]
  omega

theorem encodeBlock_b3 (f : Fields) : (encodeBlock f).b3.toNat = f.weekday.toNat := by
  simp only [encodeBlock, append_toNat, BitVec.toNat_ofNat]
  omega

theorem encodeBlock_b4 (f : Fields) : (encodeBlock f).b4.toNat = f.dayTens.toNat * 16 + f.dayUnits.toNat := by
  simp only [encodeBlock, append_toNat, BitVec.toNat_ofNat]
  omega

theorem encodeBlock_b5 (f : Fields) :
    (encodeBlock f).b5.toNat = f.century.toNat * 128 + f.monthTens.toNat * 16 + f.monthUnits.toNat := by
  simp only [encodeBlock, append_toNat, BitVec.toNat_ofNat]
  omega

theorem encodeBlock_b6 (f : Fields) : (encodeBlock f).b6.toNat = f.yearTens.toNat * 16 + f.yearUnits.toNat := by
  simp only [encodeBlock, append_toNat]
  omega

/-- Settles O11: the block is that of `encodeBlock`. -/
theorem encodePacksFields : Obligations.EncodePacksFields :=
  ⟨fun _ f hf => ⟨encodeBlock f, exec_encode_of_f hf, encodeBlock_b0 f, encodeBlock_b1 f, encodeBlock_b2 f,
    encodeBlock_b3 f, encodeBlock_b4 f, encodeBlock_b5 f, encodeBlock_b6 f⟩, fun _ hf => exec_encode_unwritten hf⟩

/-! ### The round trip on the structured view (spec/40_codec.md R61) -/

/-- Two structured views are equal when their sub-fields are, as numbers. -/
theorem Fields_ext_toNat {f g : Fields} (hvl : f.vl.toNat = g.vl.toNat) (hsecTens : f.secTens.toNat = g.secTens.toNat)
    (hsecUnits : f.secUnits.toNat = g.secUnits.toNat) (hminTens : f.minTens.toNat = g.minTens.toNat)
    (hminUnits : f.minUnits.toNat = g.minUnits.toNat) (hhourTens : f.hourTens.toNat = g.hourTens.toNat)
    (hhourUnits : f.hourUnits.toNat = g.hourUnits.toNat) (hweekday : f.weekday.toNat = g.weekday.toNat)
    (hdayTens : f.dayTens.toNat = g.dayTens.toNat) (hdayUnits : f.dayUnits.toNat = g.dayUnits.toNat)
    (hcentury : f.century.toNat = g.century.toNat) (hmonthTens : f.monthTens.toNat = g.monthTens.toNat)
    (hmonthUnits : f.monthUnits.toNat = g.monthUnits.toNat) (hyearTens : f.yearTens.toNat = g.yearTens.toNat)
    (hyearUnits : f.yearUnits.toNat = g.yearUnits.toNat) : f = g := by
  cases f
  cases g
  simp only [Fields.mk.injEq, ← BitVec.toNat_inj]
  exact ⟨hvl, hsecTens, hsecUnits, hminTens, hminUnits, hhourTens, hhourUnits, hweekday, hdayTens, hdayUnits, hcentury,
    hmonthTens, hmonthUnits, hyearTens, hyearUnits⟩

/-- Each sub-field comes back out of its own byte: the parts above it are multiples of its place, those below are
smaller than it. -/
theorem decodeBlock_encodeBlock (f : Fields) : decodeBlock (encodeBlock f) = f := by
  obtain ⟨hvl, hsecTens, hsecUnits⟩ := decodeBlock_byte0 (encodeBlock f)
  obtain ⟨hminTens, hminUnits⟩ := decodeBlock_byte1 (encodeBlock f)
  obtain ⟨hhourTens, hhourUnits⟩ := decodeBlock_byte2 (encodeBlock f)
  have hweekday := decodeBlock_byte3 (encodeBlock f)
  obtain ⟨hdayTens, hdayUnits⟩ := decodeBlock_byte4 (encodeBlock f)
  obtain ⟨hcentury, hmonthTens, hmonthUnits⟩ := decodeBlock_byte5 (encodeBlock f)
  obtain ⟨hyearTens, hyearUnits⟩ := decodeBlock_byte6 (encodeBlock f)
  rw [encodeBlock_b0] at hvl hsecTens hsecUnits
  rw [encodeBlock_b1] at hminTens hminUnits
  rw [encodeBlock_b2] at hhourTens hhourUnits
  rw [encodeBlock_b3] at hweekday
  rw [encodeBlock_b4] at hdayTens hdayUnits
  rw [encodeBlock_b5] at hcentury hmonthTens hmonthUnits
  rw [encodeBlock_b6] at hyearTens hyearUnits
  apply Fields_ext_toNat <;> omega

/-- Settles O12: the fields come back from their own bytes. -/
theorem decodeUndoesEncode : Obligations.DecodeUndoesEncode := decodeBlock_encodeBlock

/-! ### The round trip on the bytes (spec/40_codec.md R62) -/

/-- A byte with no unused bit is put together again from its parts. -/
theorem Byte_parts_1_3_4 (b : Byte) :
    (b.extractLsb 7 7 ++ b.extractLsb 6 4 ++ b.extractLsb 3 0 : BitVec (1 + 3 + 4)) = b &&& 0xFF#8 := by
  revert b; decide

theorem Byte_parts_unused_3_4 (b : Byte) :
    (0#1 ++ b.extractLsb 6 4 ++ b.extractLsb 3 0 : BitVec (1 + 3 + 4)) = b &&& 0x7F#8 := by
  revert b; decide

theorem Byte_parts_unused_2_4 (b : Byte) :
    (0#2 ++ b.extractLsb 5 4 ++ b.extractLsb 3 0 : BitVec (2 + 2 + 4)) = b &&& 0x3F#8 := by
  revert b; decide

theorem Byte_parts_unused_3 (b : Byte) : (0#5 ++ b.extractLsb 2 0 : BitVec (5 + 3)) = b &&& 0x07#8 := by
  revert b; decide

theorem Byte_parts_1_unused_1_4 (b : Byte) :
    (b.extractLsb 7 7 ++ 0#2 ++ b.extractLsb 4 4 ++ b.extractLsb 3 0 : BitVec (1 + 2 + 1 + 4)) = b &&& 0x9F#8 := by
  revert b; decide

theorem Byte_parts_4_4 (b : Byte) : (b.extractLsb 7 4 ++ b.extractLsb 3 0 : BitVec (4 + 4)) = b &&& 0xFF#8 := by
  revert b; decide

theorem encodeBlock_decodeBlock (r : RawBlock) : encodeBlock (decodeBlock r) = andBlock r usedBits := by
  simp only [encodeBlock, decodeBlock, Byte_parts_1_3_4, Byte_parts_unused_3_4, Byte_parts_unused_2_4, Byte_parts_unused_3,
    Byte_parts_1_unused_1_4, Byte_parts_4_4]
  rfl

/-- Settles O13: putting a byte's parts together again is masking it. -/
theorem encodeOfDecodeMasksUnused : Obligations.EncodeOfDecodeMasksUnused :=
  fun r => ⟨encodeBlock_decodeBlock r, by rw [encodeBlock_decodeBlock]⟩

/-- Settles O14, from the two round trips: the fields determine the used bits, and the used bits the fields. -/
theorem decodeIgnoresExactlyUnusedBits : Obligations.DecodeIgnoresExactlyUnusedBits := by
  intro r r'
  constructor
  · intro h
    rw [← encodeBlock_decodeBlock, h, encodeBlock_decodeBlock]
  · intro h
    rw [← decodeBlock_encodeBlock (decodeBlock r), encodeBlock_decodeBlock, h, ← encodeBlock_decodeBlock,
      decodeBlock_encodeBlock]

/-! ### The oscillator's flag in the block -/

/-- Settles O16: VL is bit 7 of byte 0, a digit that is 1 exactly from 128 on. -/
theorem oscillatorAnswerIsOneBit : Obligations.OscillatorAnswerIsOneBit := by
  intro r
  obtain ⟨hvl, -, -⟩ := decodeBlock_byte0 r
  have hbyte := r.b0.isLt
  rw [oscStopped_iff, ← BitVec.toNat_inj, hvl, BitVec.toNat_ofNat]
  omega

end Sys2Proof.Machine
end

section
/-! PROOFS. The calendar conversions, the other half (spec/42_calendar.md R76 to R81): the digits of a value, `FROMCAL`,
and what a record or a structured view becomes on its way there and back. -/

namespace Sys2Proof.Machine

/-! ### The digits of a value (spec/42_calendar.md R76) -/

theorem tensDigit_toNat {w : Nat} (hw : 4 ≤ w) (n : Nat) (v : BitVec w) :
    (tensDigit n v).toNat = v.toNat / 10 % 2 ^ n := by
  have h10 : 10 < 2 ^ w := Nat.lt_of_lt_of_le (by decide) (Nat.pow_le_pow_right (by decide) hw)
  simp only [tensDigit, BitVec.toNat_setWidth, BitVec.toNat_udiv, BitVec.toNat_ofNat, Nat.mod_eq_of_lt h10]

theorem unitsDigit_toNat {w : Nat} (hw : 4 ≤ w) (v : BitVec w) : (unitsDigit v).toNat = v.toNat % 10 := by
  have h10 : 10 < 2 ^ w := Nat.lt_of_lt_of_le (by decide) (Nat.pow_le_pow_right (by decide) hw)
  simp only [unitsDigit, BitVec.toNat_setWidth, BitVec.toNat_umod, BitVec.toNat_ofNat, Nat.mod_eq_of_lt h10]
  omega

/-! ### `FromCal`, sub-field by sub-field -/

@[simp] theorem fromCal_vl (c : Calendar) : (fromCal c).vl = 0#1 := rfl

@[simp] theorem fromCal_secTens_toNat (c : Calendar) : (fromCal c).secTens.toNat = c.second.toNat / 10 % 8 :=
  tensDigit_toNat (by decide) 3 _

@[simp] theorem fromCal_secUnits_toNat (c : Calendar) : (fromCal c).secUnits.toNat = c.second.toNat % 10 :=
  unitsDigit_toNat (by decide) _

@[simp] theorem fromCal_minTens_toNat (c : Calendar) : (fromCal c).minTens.toNat = c.minute.toNat / 10 % 8 :=
  tensDigit_toNat (by decide) 3 _

@[simp] theorem fromCal_minUnits_toNat (c : Calendar) : (fromCal c).minUnits.toNat = c.minute.toNat % 10 :=
  unitsDigit_toNat (by decide) _

@[simp] theorem fromCal_hourTens_toNat (c : Calendar) : (fromCal c).hourTens.toNat = c.hour.toNat / 10 % 4 :=
  tensDigit_toNat (by decide) 2 _

@[simp] theorem fromCal_hourUnits_toNat (c : Calendar) : (fromCal c).hourUnits.toNat = c.hour.toNat % 10 :=
  unitsDigit_toNat (by decide) _

@[simp] theorem fromCal_weekday_toNat (c : Calendar) : (fromCal c).weekday.toNat = c.weekday.toNat % 8 :=
  BitVec.toNat_setWidth 3 _

@[simp] theorem fromCal_dayTens_toNat (c : Calendar) : (fromCal c).dayTens.toNat = c.day.toNat / 10 % 4 :=
  tensDigit_toNat (by decide) 2 _

@[simp] theorem fromCal_dayUnits_toNat (c : Calendar) : (fromCal c).dayUnits.toNat = c.day.toNat % 10 :=
  unitsDigit_toNat (by decide) _

@[simp] theorem fromCal_century_toNat (c : Calendar) :
    (fromCal c).century.toNat = if 2000 ≤ c.year.toNat then 1 else 0 := by
  simp only [fromCal, BitVec.toNat_ofBool, BitVec.le_def, BitVec.toNat_ofNat]
  split <;> simp_all

@[simp] theorem fromCal_monthTens_toNat (c : Calendar) : (fromCal c).monthTens.toNat = c.month.toNat / 10 % 2 :=
  tensDigit_toNat (by decide) 1 _

@[simp] theorem fromCal_monthUnits_toNat (c : Calendar) : (fromCal c).monthUnits.toNat = c.month.toNat % 10 :=
  unitsDigit_toNat (by decide) _

theorem year_mod_hundred_toNat (y : BitVec 16) : (y % 100#16).toNat = y.toNat % 100 := BitVec.toNat_umod

/-- The two year digits never lose a bit: a tens digit of a value below 100 fits four bits. -/
@[simp] theorem fromCal_yearTens_toNat (c : Calendar) : (fromCal c).yearTens.toNat = c.year.toNat % 100 / 10 := by
  have h : (fromCal c).yearTens.toNat = (c.year % 100#16).toNat / 10 % 16 := tensDigit_toNat (by decide) 4 _
  rw [h, year_mod_hundred_toNat]
  omega

@[simp] theorem fromCal_yearUnits_toNat (c : Calendar) : (fromCal c).yearUnits.toNat = c.year.toNat % 100 % 10 := by
  have h : (fromCal c).yearUnits.toNat = (c.year % 100#16).toNat % 10 := unitsDigit_toNat (by decide) _
  rw [h, year_mod_hundred_toNat]

theorem fromCal_century_iff (c : Calendar) : (fromCal c).century = 1#1 ↔ 2000 ≤ c.year.toNat := by
  rw [← BitVec.toNat_inj, fromCal_century_toNat]
  split <;> simp_all

/-! ### `FROMCAL` (spec/42_calendar.md R76, R81) -/

/-- Settles O28: the fields are those of `fromCal`. -/
theorem fromcalSplitsDigits : Obligations.FromcalSplitsDigits :=
  ⟨fun _ c hc ho => ⟨fromCal c, exec_fromcal_of_truncate hc ho, fromCal_vl c, fromCal_secTens_toNat c,
    fromCal_secUnits_toNat c, fromCal_minTens_toNat c, fromCal_minUnits_toNat c, fromCal_hourTens_toNat c,
    fromCal_hourUnits_toNat c, fromCal_weekday_toNat c, fromCal_dayTens_toNat c, fromCal_dayUnits_toNat c,
    fromCal_century_iff c, fromCal_monthTens_toNat c, fromCal_monthUnits_toNat c, fromCal_yearTens_toNat c,
    fromCal_yearUnits_toNat c⟩, fun _ hc => exec_fromcal_unwritten hc⟩

/-- The ranges of spec/42_calendar.md R78, in numbers. -/
theorem calInRange_iff (c : Calendar) : calInRange c = true ↔
    1900 ≤ c.year.toNat ∧ c.year.toNat ≤ 2099 ∧ c.second.toNat ≤ 59 ∧ c.minute.toNat ≤ 59 ∧ c.hour.toNat ≤ 23 ∧
    1 ≤ c.day.toNat ∧ c.day.toNat ≤ 31 ∧ 1 ≤ c.month.toNat ∧ c.month.toNat ≤ 12 ∧ c.weekday.toNat ≤ 7 := by
  simp [calInRange, BitVec.le_def, and_assoc]

/-- Settles O29: the refusing machine asks for the ranges and for nothing else. -/
theorem fromcalRefusePolicy : Obligations.FromcalRefusePolicy := by
  intro s c hc ho
  rw [← calInRange_iff]
  exact ⟨exec_fromcal_of_inRange hc, fun hr => exec_fromcal_outOfRange hc ho (Bool.not_eq_true _ ▸ hr)⟩

/-! ### From digits to a record: the bounds -/

/-- Settles O27: each digit is smaller than its width allows. -/
theorem tocalBounds : Obligations.TocalBounds := by
  intro f
  have hsecTens := f.secTens.isLt
  have hsecUnits := f.secUnits.isLt
  have hminTens := f.minTens.isLt
  have hminUnits := f.minUnits.isLt
  have hhourTens := f.hourTens.isLt
  have hhourUnits := f.hourUnits.isLt
  have hweekday := f.weekday.isLt
  have hdayTens := f.dayTens.isLt
  have hdayUnits := f.dayUnits.isLt
  have hcentury := f.century.isLt
  have hmonthTens := f.monthTens.isLt
  have hmonthUnits := f.monthUnits.isLt
  have hyearTens := f.yearTens.isLt
  have hyearUnits := f.yearUnits.isLt
  simp only [toCal_second_toNat, toCal_minute_toNat, toCal_hour_toNat, toCal_weekday_toNat, toCal_day_toNat,
    toCal_month_toNat, toCal_year_toNat]
  refine ⟨?_, ?_, ?_, ?_, ?_, ?_, ?_, ?_⟩ <;> omega

/-! ### A record through the digits and back -/

/-- Settles O33: the two digits of each component, put together again. -/
theorem componentsOutsideRangeTruncate : Obligations.ComponentsOutsideRangeTruncate := by
  intro c
  refine ⟨?_, ?_, ?_, ?_, ?_, ?_⟩
  · rw [toCal_second_toNat, fromCal_secTens_toNat, fromCal_secUnits_toNat]
  · rw [toCal_minute_toNat, fromCal_minTens_toNat, fromCal_minUnits_toNat]
  · rw [toCal_hour_toNat, fromCal_hourTens_toNat, fromCal_hourUnits_toNat]
  · rw [toCal_weekday_toNat, fromCal_weekday_toNat]
  · rw [toCal_day_toNat, fromCal_dayTens_toNat, fromCal_dayUnits_toNat]
  · rw [toCal_month_toNat, fromCal_monthTens_toNat, fromCal_monthUnits_toNat]

/-- The year comes back in its own half of the window: only the two lower digits are kept. -/
theorem toCal_fromCal_year_toNat (c : Calendar) :
    (toCal (fromCal c)).year.toNat = (if 2000 ≤ c.year.toNat then 2000 else 1900) + c.year.toNat % 100 := by
  rw [toCal_year_toNat, fromCal_century_toNat, fromCal_yearTens_toNat, fromCal_yearUnits_toNat]
  split <;> omega

/-- Settles O32: by the half of the window the century flag names. -/
theorem yearsOutsideWindowAlias : Obligations.YearsOutsideWindowAlias :=
  fun c => ⟨fun h => by rw [toCal_fromCal_year_toNat, if_neg (Nat.not_le.mpr h)],
    fun h => by rw [toCal_fromCal_year_toNat, if_pos h]⟩

/-- Two records are equal when their components are, as numbers, and their timestamps. -/
theorem Calendar_ext_toNat {c d : Calendar} (hsecond : c.second.toNat = d.second.toNat)
    (hminute : c.minute.toNat = d.minute.toNat) (hhour : c.hour.toNat = d.hour.toNat)
    (hweekday : c.weekday.toNat = d.weekday.toNat) (hday : c.day.toNat = d.day.toNat)
    (hmonth : c.month.toNat = d.month.toNat) (hyear : c.year.toNat = d.year.toNat) (hts : c.ts = d.ts) : c = d := by
  cases c
  cases d
  simp only [Calendar.mk.injEq, ← BitVec.toNat_inj]
  exact ⟨hsecond, hminute, hhour, hweekday, hday, hmonth, hyear, hts⟩

theorem BitVec_and_seven_toNat (v : BitVec 8) : (v &&& 7#8).toNat = v.toNat % 8 := by
  rw [BitVec.toNat_and]
  exact Nat.and_two_pow_sub_one_eq_mod _ 3

/-- A record whose components, but for the weekday, are in the ranges of spec/42_calendar.md R78 comes back from the
digits with the low three bits of its weekday. -/
theorem toCal_fromCal_of_inRange {c : Calendar} (hyear : 1900 ≤ c.year.toNat ∧ c.year.toNat ≤ 2099)
    (hsecond : c.second.toNat ≤ 59) (hminute : c.minute.toNat ≤ 59) (hhour : c.hour.toNat ≤ 23)
    (hday : c.day.toNat ≤ 31) (hmonth : c.month.toNat ≤ 12) :
    toCal (fromCal c) = { c with ts := none, weekday := c.weekday &&& 7#8 } := by
  obtain ⟨hs, hm, hh, hw, hd, hmo⟩ := componentsOutsideRangeTruncate c
  have hy := toCal_fromCal_year_toNat c
  apply Calendar_ext_toNat
  · rw [hs]; dsimp only; omega
  · rw [hm]; dsimp only; omega
  · rw [hh]; dsimp only; omega
  · rw [hw, BitVec_and_seven_toNat]
  · rw [hd]; dsimp only; omega
  · rw [hmo]; dsimp only; omega
  · rw [hy]; dsimp only; split <;> omega
  · rfl

/-- Settles O30: in the ranges the weekday has no more than three bits, and the block gives the digits back. -/
theorem calendarRoundTrip : Obligations.CalendarRoundTrip := by
  intro c hc
  obtain ⟨hlo, hhi, hsecond, hminute, hhour, -, hday, -, hmonth, hweekday⟩ := (calInRange_iff c).mp hc
  have hkept : c.weekday &&& 7#8 = c.weekday := by
    rw [← BitVec.toNat_inj, BitVec_and_seven_toNat]
    omega
  have htrip : toCal (fromCal c) = { c with ts := none } := by
    rw [toCal_fromCal_of_inRange ⟨hlo, hhi⟩ hsecond hminute hhour hday hmonth, hkept]
  exact ⟨htrip, by rw [decodeBlock_encodeBlock, htrip]⟩

/-! ### A structured view through the record and back -/

/-- The clauses of `BcdWellFormed` (spec/10_state.md R12) that the way back needs: every units digit and the year's tens
are decimal. -/
theorem bcdWellFormed_digits {f : Fields} (h : bcdWellFormed f = true) :
    f.secUnits.toNat ≤ 9 ∧ f.minUnits.toNat ≤ 9 ∧ f.hourUnits.toNat ≤ 9 ∧ f.dayUnits.toNat ≤ 9 ∧
    f.monthUnits.toNat ≤ 9 ∧ f.yearUnits.toNat ≤ 9 ∧ f.yearTens.toNat ≤ 9 := by
  simp only [bcdWellFormed, BitVec.le_def, BitVec.toNat_ofNat, Bool.and_eq_true, decide_eq_true_eq] at h
  omega

/-- Settles O31: with decimal units the tens are what division by 10 leaves, and with a decimal tens digit the year's two
digits do not reach the century. -/
theorem wellFormedFieldsRoundTrip : Obligations.WellFormedFieldsRoundTrip := by
  intro f hf
  obtain ⟨hsec, hmin, hhour, hday, hmonth, hyear, hyearTens⟩ := bcdWellFormed_digits hf
  have hsecTens := f.secTens.isLt
  have hminTens := f.minTens.isLt
  have hhourTens := f.hourTens.isLt
  have hweekday := f.weekday.isLt
  have hdayTens := f.dayTens.isLt
  have hcentury := f.century.isLt
  have hmonthTens := f.monthTens.isLt
  have hsplit : (fromCal (toCal f)).century.toNat = f.century.toNat := by
    rw [fromCal_century_toNat, toCal_year_toNat]
    split <;> omega
  apply Fields_ext_toNat
  case hvl => rfl
  case hcentury => exact hsplit
  all_goals
    simp
    omega

end Sys2Proof.Machine
end

section
/-! PROOFS. The validity detector (spec/41_validity.md): the calendar functions, the calendar predicate clause by clause,
the window of timestamps, and `CHKCAL`. -/

namespace Sys2Proof.Machine

/-! ### Leap years and month lengths (spec/41_validity.md R66, R67) -/

theorem isLeap_iff (y : Nat) : isLeap y = true ↔ (4 ∣ y ∧ ¬ 100 ∣ y) ∨ 400 ∣ y := by
  simp [isLeap, Nat.dvd_iff_mod_eq_zero]

theorem daysInMonth_of_outside (y : Nat) {m : Nat} (h : m = 0 ∨ 12 < m) : daysInMonth y m = none := by
  unfold daysInMonth
  rw [if_neg (by omega), if_neg (by omega), if_neg (by omega)]

/-- Settles O17: the leap rule in divisibility, the twelve lengths, and no other month. -/
theorem monthLengthsFollowLeapRule : Obligations.MonthLengthsFollowLeapRule :=
  fun y => ⟨isLeap_iff y, rfl, fun _ h => daysInMonth_of_outside y h⟩

/-- A month with a length is one of the twelve. -/
theorem month_of_daysInMonth {y m n : Nat} (h : daysInMonth y m = some n) : 1 ≤ m ∧ m ≤ 12 := by
  by_contra hm
  rw [daysInMonth_of_outside y (by omega)] at h
  cases h

theorem daysInMonth_le {y m n : Nat} (h : daysInMonth y m = some n) : n ≤ 31 ∧ (m = 2 → n ≤ 29) := by
  unfold daysInMonth at h
  split_ifs at h <;> cases h <;> omega

/-! ### The day count (spec/41_validity.md R68) -/

/-- The leap days before the next year count this year's. -/
theorem leapDays_succ (y : Nat) : leapDays (y + 1) = leapDays y + if isLeap y then 1 else 0 := by
  simp only [leapDays, isLeap_iff]
  split <;> omega

theorem daysFromEpoch_of_cum {m : Nat} {cum : Int} (h : daysBeforeMonth m = some cum) (y d : Nat) :
    daysFromEpoch y m d =
      some (365 * ((y : Int) - 1970) + (leapDays y - 477) + cum + (if 2 < m ∧ isLeap y then 1 else 0) +
        ((d : Int) - 1)) := by
  simp only [daysFromEpoch, h, Option.map_some]

theorem daysFromEpoch_next_day {y m d : Nat} {x : Int} (h : daysFromEpoch y m d = some x) :
    daysFromEpoch y m (d + 1) = some (x + 1) := by
  obtain ⟨cum, hcum, rfl⟩ := Option.map_eq_some_iff.mp h
  rw [daysFromEpoch_of_cum hcum, Option.some.injEq]
  push_cast
  ring

/-- `CUM` grows by the month's length, but for the leap day, which the day count adds from March on. -/
theorem daysBeforeMonth_succ {y m n : Nat} (hm : m ≤ 11) (h : daysInMonth y m = some n) :
    ∃ cum : Int, daysBeforeMonth m = some cum ∧
      daysBeforeMonth (m + 1) = some (cum + n - if m = 2 ∧ isLeap y then 1 else 0) := by
  obtain ⟨hlow, -⟩ := month_of_daysInMonth h
  interval_cases m <;> cases h
  all_goals
    refine ⟨_, rfl, ?_⟩
    cases isLeap y <;> rfl

theorem daysFromEpoch_next_month {y m n : Nat} {x : Int} (hm : m ≤ 11) (hn : daysInMonth y m = some n)
    (h : daysFromEpoch y m n = some x) : daysFromEpoch y (m + 1) 1 = some (x + 1) := by
  obtain ⟨cum, hcum, hnext⟩ := daysBeforeMonth_succ hm hn
  rw [daysFromEpoch_of_cum hcum, Option.some.injEq] at h
  have hleap : (if 2 < m + 1 ∧ isLeap y then 1 else 0 : Int) =
      (if m = 2 ∧ isLeap y then 1 else 0) + if 2 < m ∧ isLeap y then 1 else 0 := by
    cases isLeap y with
    | false => simp
    | true =>
      simp only [and_true]
      split_ifs <;> omega
  rw [daysFromEpoch_of_cum hnext, Option.some.injEq, ← h, hleap]
  ring

theorem daysFromEpoch_next_year {y : Nat} {x : Int} (h : daysFromEpoch y 12 31 = some x) :
    daysFromEpoch (y + 1) 1 1 = some (x + 1) := by
  rw [daysFromEpoch_of_cum (cum := 334) rfl, Option.some.injEq] at h
  rw [daysFromEpoch_of_cum (cum := 0) rfl, Option.some.injEq, leapDays_succ, ← h]
  cases isLeap y <;> simp <;> ring

/-- Settles O18: the epoch, and the next day within a month, over a month's end and over a year's end. -/
theorem dayCountFollowsCalendar : Obligations.DayCountFollowsCalendar :=
  ⟨by decide, fun _ _ _ _ => daysFromEpoch_next_day, fun _ _ _ _ => daysFromEpoch_next_month,
    fun _ _ => daysFromEpoch_next_year⟩

/-! ### The timestamp (spec/41_validity.md R69) -/

theorem daysBeforeMonth_isSome (m : Nat) : (daysBeforeMonth m).isSome = true ↔ 1 ≤ m ∧ m ≤ 12 := by
  unfold daysBeforeMonth
  split <;> simp <;> omega

theorem timestamp_of_days {c : Calendar} {d : Int} (h : daysFromEpoch c.year.toNat c.month.toNat c.day.toNat = some d) :
    timestamp c = some (d * 86400 + c.hour.toNat * 3600 + c.minute.toNat * 60 + c.second.toNat) := by
  simp only [timestamp, h, Option.map_some]

theorem timestamp_isSome (c : Calendar) : (timestamp c).isSome = true ↔ 1 ≤ c.month.toNat ∧ c.month.toNat ≤ 12 := by
  rw [timestamp, Option.isSome_map, daysFromEpoch, Option.isSome_map, daysBeforeMonth_isSome]

/-! ### The calendar predicate (spec/41_validity.md R70) -/

theorem dayInMonth_iff (c : Calendar) : dayInMonth c = true ↔
    ∃ n, daysInMonth c.year.toNat c.month.toNat = some n ∧ 1 ≤ c.day.toNat ∧ c.day.toNat ≤ n := by
  unfold dayInMonth
  split <;> simp_all

theorem stampInBounds_iff (p : Params) (c : Calendar) : stampInBounds p c = true ↔
    ∃ t, timestamp c = some t ∧ p.tsMin.toInt ≤ t ∧ t ≤ p.tsMax.toInt := by
  unfold stampInBounds
  split <;> simp_all

/-- Settles O19: the predicate is the conjunction of its clauses. -/
theorem calendarPredicateClauses : Obligations.CalendarPredicateClauses := by
  intro p c
  simp only [calendarOk, Bool.and_eq_true, decide_eq_true_eq, dayInMonth_iff, stampInBounds_iff, and_assoc]

/-- Settles O22: each component falsifies its own clause; no month has 32 days, and February no 30. -/
theorem requiredRejections : Obligations.RequiredRejections := by
  intro p c hbad
  rw [← Bool.not_eq_true, calendarPredicateClauses p c]
  rintro ⟨hsecond, hminute, hhour, hmonthLow, hmonthHigh, -, -, ⟨n, hn, hdayLow, hdayHigh⟩, -⟩
  obtain ⟨hle, hfebruary⟩ := daysInMonth_le hn
  rcases hbad with h | h | h | h | h | h | h | ⟨hday, hmonth⟩
  · simp [h] at hhour
  · simp [h] at hminute
  · simp [h] at hsecond
  · simp [h] at hmonthLow
  · simp [h] at hmonthHigh
  · simp [h] at hdayLow
  · have h32 : c.day.toNat = 32 := by rw [h]; rfl
    omega
  · have h30 : c.day.toNat = 30 := by rw [hday]; rfl
    have h2 : c.month.toNat = 2 := by rw [hmonth]; rfl
    omega

/-- Settles O23: neither component occurs in the functions. -/
theorem calendarCheckIgnoresWeekday : Obligations.CalendarCheckIgnoresWeekday := fun _ _ _ _ => ⟨rfl, rfl⟩

/-! ### The window (spec/92_eei_decisions.md D5) -/

/-- `CUM` and the month's length stay within the year, the leap day counted. -/
theorem daysBeforeMonth_bounds {y m n : Nat} {cum : Int} (hn : daysInMonth y m = some n)
    (hcum : daysBeforeMonth m = some cum) :
    0 ≤ cum ∧ cum + (if 2 < m ∧ isLeap y then 1 else 0) + n ≤ 365 + if isLeap y then 1 else 0 := by
  obtain ⟨hm1, hm2⟩ := month_of_daysInMonth hn
  interval_cases m <;> cases hn <;> cases hcum
  all_goals cases isLeap y <;> decide

/-- The days of a year before one of its dates: at most 364, or 365 in a leap year. -/
theorem dayOfYear_bounds {y m n d : Nat} (hn : daysInMonth y m = some n) (hlow : 1 ≤ d) (hhigh : d ≤ n) :
    ∃ k : Int, 0 ≤ k ∧ k ≤ 364 + (if isLeap y then 1 else 0) ∧
      daysFromEpoch y m d = some (365 * ((y : Int) - 1970) + (leapDays y - 477) + k) := by
  obtain ⟨hm1, hm2⟩ := month_of_daysInMonth hn
  obtain ⟨cum, hcum⟩ := Option.isSome_iff_exists.mp ((daysBeforeMonth_isSome m).mpr ⟨hm1, hm2⟩)
  obtain ⟨hcumLow, hcumHigh⟩ := daysBeforeMonth_bounds hn hcum
  refine ⟨cum + (if 2 < m ∧ isLeap y then 1 else 0) + ((d : Int) - 1), ?_, ?_, ?_⟩
  · split_ifs <;> omega
  · split_ifs at hcumHigh ⊢ <;> omega
  · rw [daysFromEpoch_of_cum hcum, Option.some.injEq]
    ring

/-- The first and the last day of the window, 1900-01-01 and 2099-12-31. -/
theorem daysFromEpoch_window {y m n d : Nat} (hy1 : 1900 ≤ y) (hy2 : y ≤ 2099) (hn : daysInMonth y m = some n)
    (hlow : 1 ≤ d) (hhigh : d ≤ n) : ∃ x, daysFromEpoch y m d = some x ∧ -25567 ≤ x ∧ x ≤ 47481 := by
  obtain ⟨k, hk1, hk2, hx⟩ := dayOfYear_bounds hn hlow hhigh
  refine ⟨_, hx, ?_, ?_⟩
  · simp only [leapDays]
    omega
  · simp only [isLeap_iff] at hk2
    simp only [leapDays]
    split at hk2 <;> omega

/-- Every date of the window with a time of day has a timestamp between the edges. -/
theorem timestamp_window {c : Calendar} (hsecond : c.second.toNat ≤ 59) (hminute : c.minute.toNat ≤ 59)
    (hhour : c.hour.toNat ≤ 23) (hy1 : 1900 ≤ c.year.toNat) (hy2 : c.year.toNat ≤ 2099)
    (hday : ∃ n, daysInMonth c.year.toNat c.month.toNat = some n ∧ 1 ≤ c.day.toNat ∧ c.day.toNat ≤ n) :
    ∃ t, timestamp c = some t ∧ -2208988800 ≤ t ∧ t ≤ 4102444799 := by
  obtain ⟨n, hn, hlow, hhigh⟩ := hday
  obtain ⟨x, hx, hx1, hx2⟩ := daysFromEpoch_window hy1 hy2 hn hlow hhigh
  refine ⟨_, timestamp_of_days hx, ?_, ?_⟩ <;> omega

/-- Settles O20: the formula, its domain, and the window, whose edges are evaluated. -/
theorem windowTimestampEdges : Obligations.WindowTimestampEdges := by
  refine ⟨fun _ _ => timestamp_of_days, timestamp_isSome, fun p c t hok ht => ?_, by decide, by decide⟩
  obtain ⟨hsecond, hminute, hhour, -, -, hy1, hy2, hday, -⟩ := (calendarPredicateClauses p c).mp hok
  obtain ⟨u, hu, hbounds⟩ := timestamp_window hsecond hminute hhour hy1 hy2 hday
  obtain rfl : u = t := Option.some.inj (hu.symm.trans ht)
  exact hbounds

/-- Settles O21: the window lies within the default bounds, which are those of 64 bits. -/
theorem defaultBoundsRejectNoDate : Obligations.DefaultBoundsRejectNoDate := by
  intro c hsecond hminute hhour hy1 hy2 hday
  obtain ⟨t, ht, ht1, ht2⟩ := timestamp_window hsecond hminute hhour hy1 hy2 hday
  obtain ⟨n, hn, -⟩ := id hday
  obtain ⟨hm1, hm2⟩ := month_of_daysInMonth hn
  have hmin : Params.default.tsMin.toInt = -9223372036854775808 := by decide
  have hmax : Params.default.tsMax.toInt = 9223372036854775807 := by decide
  refine (calendarPredicateClauses _ c).mpr ⟨hsecond, hminute, hhour, hm1, hm2, hy1, hy2, hday, t, ht, ?_, ?_⟩ <;> omega

/-! ### `CHKCAL` (spec/41_validity.md R71) -/

/-- A timestamp between two bounds of 64 bits is held by 64 bits as it is. -/
theorem ofInt_toInt_of_bounds {lo hi : Timestamp} {t : Int} (hlo : lo.toInt ≤ t) (hhi : t ≤ hi.toInt) :
    (BitVec.ofInt 64 t).toInt = t :=
  BitVec.toInt_ofInt_eq_self (by decide) (lo.le_toInt.trans hlo) (hhi.trans_lt hi.toInt_lt)

theorem stamped_of_timestamp {c : Calendar} {t : Int} (h : timestamp c = some t) :
    stamped c = { c with ts := some (BitVec.ofInt 64 t) } := by
  simp only [stamped, h, Option.map_some]

/-- Settles O24: the timestamp of a record that passes lies between the parameters, which 64 bits hold. -/
theorem chkcalCompletesRecord : Obligations.ChkcalCompletesRecord := by
  refine ⟨fun s c hc hok => ?_, fun s hc => exec_chkcal_unwritten hc⟩
  obtain ⟨t, ht, hlo, hhi⟩ := calendarOk_timestamp hok
  exact ⟨t, ht, ofInt_toInt_of_bounds hlo hhi, stamped_of_timestamp ht ▸ exec_chkcal_of_pass hc hok⟩

end Sys2Proof.Machine
end

section
/-! PROOFS. The two transactions (spec/44_sequences.md): their functions case by case, their runs one operation after the
other, and that nothing but the answers decides how a run ends. -/

namespace Sys2Proof.Machine

/-! ### `RDSYNC` as a function of the port's answer (spec/44_sequences.md R91) -/

theorem rdsyncResult_of_failure (p : Params) {a : ReadAnswer} (h : answerBlock a = none) :
    rdsyncResult p a = .error .transportError := by
  simp only [rdsyncResult, h]

theorem rdsyncResult_of_stopped (p : Params) {a : ReadAnswer} {r : RawBlock} (h : answerBlock a = some r)
    (hosc : oscStopped (decodeBlock r) = true) : rdsyncResult p a = .error .clockHalted := by
  simp only [rdsyncResult, h, hosc, if_true]

theorem rdsyncResult_of_badDate {p : Params} {a : ReadAnswer} {r : RawBlock} (h : answerBlock a = some r)
    (hosc : oscStopped (decodeBlock r) = false) (hok : calendarOk p (toCal (decodeBlock r)) = false) :
    rdsyncResult p a = .error .invalidCalendar := by
  simp only [rdsyncResult, h, hosc, hok, Bool.false_eq_true, if_false]

theorem rdsyncResult_of_pass {p : Params} {a : ReadAnswer} {r : RawBlock} {x : Int} (h : answerBlock a = some r)
    (hosc : oscStopped (decodeBlock r) = false) (hok : calendarOk p (toCal (decodeBlock r)) = true)
    (hx : timestamp (toCal (decodeBlock r)) = some x) : rdsyncResult p a = .ok x := by
  simp only [rdsyncResult, h, hosc, hok, hx, Bool.false_eq_true, if_false, if_true]

/-! ### `WRHOST` as a function of the two answers (spec/44_sequences.md R92) -/

theorem wrhostBlock_of_valid {h : Calendar} (hvalid : h.valid = true) : wrhostBlock h = .ok (encodeBlock (fromCal h)) := by
  simp only [wrhostBlock, hvalid, if_true]

theorem wrhostBlock_of_invalid {h : Calendar} (hvalid : h.valid = false) : wrhostBlock h = .error .hostClockInvalid := by
  simp only [wrhostBlock, hvalid, Bool.false_eq_true, if_false]

theorem wrhostResult_of_success {h : Calendar} (hvalid : h.valid = true) :
    wrhostResult h true = .ok (encodeBlock (fromCal h)) := by
  simp only [wrhostResult, wrhostBlock_of_valid hvalid, if_true]

theorem wrhostResult_of_failure {h : Calendar} (hvalid : h.valid = true) :
    wrhostResult h false = .error .transportError := by
  simp only [wrhostResult, wrhostBlock_of_valid hvalid, Bool.false_eq_true, if_false]

theorem wrhostResult_of_invalid {h : Calendar} (okW : Bool) (hvalid : h.valid = false) :
    wrhostResult h okW = .error .hostClockInvalid := by
  simp only [wrhostResult, wrhostBlock_of_invalid hvalid]

/-- `FROMCAL` writes VL as 0, so the block has bit 7 of its first byte clear. -/
theorem encodeBlock_fromCal_b0_lt (h : Calendar) : (encodeBlock (fromCal h)).b0.toNat < 128 := by
  have htens := (fromCal h).secTens.isLt
  have hunits := (fromCal h).secUnits.isLt
  rw [encodeBlock_b0, fromCal_vl, BitVec.toNat_ofNat]
  omega

/-- Settles O51: each function asks in the order of the errors. -/
theorem errorPrecedence : Obligations.ErrorPrecedence := by
  refine ⟨fun p a h => rdsyncResult_of_failure p (answerBlock_eq_none.mpr h), fun p a r hok hbytes hvl => ?_,
    fun h okW hvalid => wrhostResult_of_invalid okW hvalid⟩
  exact rdsyncResult_of_stopped p (answerBlock_eq_some.mpr ⟨hok, hbytes.symm⟩) ((oscillatorAnswerIsOneBit r).mpr hvl)

/-- Settles O60: the block gives the digits back, the digits the record but for the weekday's upper bits, and neither the
check nor the timestamp reads the weekday. -/
theorem writeThenReadGivesSameTime : Obligations.WriteThenReadGivesSameTime := by
  intro p h hvalid hok
  obtain ⟨x, hx, -⟩ := calendarOk_timestamp hok
  obtain ⟨hsecond, hminute, hhour, -, hmonth, hy1, hy2, ⟨n, hn, -, hday⟩, -⟩ := (calendarPredicateClauses p h).mp hok
  obtain ⟨hn31, -⟩ := daysInMonth_le hn
  have htrip : toCal (decodeBlock (encodeBlock (fromCal h))) = { h with ts := none, weekday := h.weekday &&& 7#8 } := by
    rw [decodeBlock_encodeBlock,
      toCal_fromCal_of_inRange ⟨hy1, hy2⟩ hsecond hminute hhour (hday.trans hn31) hmonth]
  obtain ⟨hsameOk, hsameTs⟩ := calendarCheckIgnoresWeekday p h (h.weekday &&& 7#8) none
  have hosc : oscStopped (decodeBlock (encodeBlock (fromCal h))) = false := by
    rw [decodeBlock_encodeBlock]
    rfl
  refine ⟨_, x, wrhostBlock_of_valid hvalid, hx, ?_, htrip⟩
  exact rdsyncResult_of_pass (answerBlock_blockBytes _) hosc (htrip ▸ hsameOk.trans hok) (htrip ▸ hsameTs.trans hx)

/-! ### A run, one operation after the other -/

/-- The block's own registers (spec/10_state.md R9). -/
structure BlockState where
  raw    : Option RawBlock
  f      : Option Fields
  c      : Option Calendar
  halted : Bool
  calOk  : Bool
  err    : Option SyncError

/-- What a state's block holds. -/
def State.block (s : State) : BlockState := ⟨s.raw, s.f, s.c, s.halted, s.calOk, s.err⟩

/-- After `k` steps from `s` the run stands at `t` with no operation left: the block holds `b`, and the calls made on the
way are `new`. -/
structure EndsIn (s : State) (k : Nat) (b : BlockState) (new : List PortCall) (t : State) : Prop where
  run : Host.Core.run Sys2Proof.core k s = .next t
  block : t.block = b
  calls : t.calls = new ++ s.calls
  seq : t.seq = []

section

variable {s t : State} {k : Nat} {b : BlockState} {new : List PortCall}

theorem EndsIn.halted (h : EndsIn s k b new t) : t.halted = b.halted := congrArg BlockState.halted h.block

theorem EndsIn.calOk (h : EndsIn s k b new t) : t.calOk = b.calOk := congrArg BlockState.calOk h.block

theorem EndsIn.err (h : EndsIn s k b new t) : t.err = b.err := congrArg BlockState.err h.block

end

theorem run_of_next_op {s t : State} {i : Instr} {ws : List OpWord} {k : Nat} {o : Host.Outcome State Fault Refusal}
    (hseq : s.seq = encode i :: ws) (h : exec i { worldMove s with seq := ws } = .next t)
    (hrest : Host.Core.run Sys2Proof.core k t = o) : Host.Core.run Sys2Proof.core (k + 1) s = o :=
  (core_run_next k ((stepRunsDecodedOperation s _ ws i hseq (decode_encode i)).trans h)).trans hrest

theorem run_of_refused_op {s : State} {i : Instr} {ws : List OpWord} {g : Refusal} (k : Nat)
    (hseq : s.seq = encode i :: ws) (h : exec i { worldMove s with seq := ws } = .refused g) :
    Host.Core.run Sys2Proof.core (k + 1) s = .refused g := by
  have hstep : Sys2Proof.core.step s = .refused g :=
    (stepRunsDecodedOperation s _ ws i hseq (decode_encode i)).trans h
  simp only [Host.Core.run, hstep]

/-! ### `RDSYNC`, its four ends -/

section Rdsync

variable {s : State} {r : RawBlock} (hseq : s.seq = opWords rdsyncOps)

include hseq

theorem rdsync_readFails (hread : answerBlock (readAnswer (worldMove s)) = none) :
    ∃ t, EndsIn s 1 ⟨none, none, none, false, false, some .transportError⟩
      [.memRead Config.blockAddr Config.blockLen] t :=
  ⟨_, run_of_next_op hseq (exec_rdblk_of_failure hread) rfl, rfl, rfl, rfl⟩

variable (hread : answerBlock (readAnswer (worldMove s)) = some r)

include hread

theorem rdsync_halts (hosc : oscStopped (decodeBlock r) = true) :
    ∃ t, EndsIn s 3 ⟨none, none, none, true, false, some .clockHalted⟩ [.memRead Config.blockAddr Config.blockLen] t :=
  ⟨_, run_of_next_op hseq (exec_rdblk_of_block hread) <|
    run_of_next_op rfl (exec_decode_of_raw rfl) <|
    run_of_next_op rfl (exec_chkosc_of_stopped rfl hosc) rfl, rfl, rfl, rfl⟩

theorem rdsync_badDate (hosc : oscStopped (decodeBlock r) = false)
    (hok : calendarOk s.params (toCal (decodeBlock r)) = false) :
    ∃ t, EndsIn s 5 ⟨none, none, none, false, false, some .invalidCalendar⟩
      [.memRead Config.blockAddr Config.blockLen] t :=
  ⟨_, run_of_next_op hseq (exec_rdblk_of_block hread) <|
    run_of_next_op rfl (exec_decode_of_raw rfl) <|
    run_of_next_op rfl (exec_chkosc_of_running rfl hosc) <|
    run_of_next_op rfl (exec_tocal_of_f rfl) <|
    run_of_next_op rfl (exec_chkcal_of_failure rfl hok) rfl, rfl, rfl, rfl⟩

theorem rdsync_pushes {x : Int} (hosc : oscStopped (decodeBlock r) = false)
    (hok : calendarOk s.params (toCal (decodeBlock r)) = true) (hx : timestamp (toCal (decodeBlock r)) = some x) :
    ∃ t, EndsIn s 6
      ⟨some r, some (decodeBlock r), some (stamped (toCal (decodeBlock r))), false, true, none⟩
      [.hostSet (BitVec.ofInt 64 x), .memRead Config.blockAddr Config.blockLen] t ∧
      t.hostTime = some (BitVec.ofInt 64 x) := by
  have hts : (stamped (toCal (decodeBlock r))).ts = some (BitVec.ofInt 64 x) := by rw [stamped_of_timestamp hx]
  exact ⟨_, ⟨run_of_next_op hseq (exec_rdblk_of_block hread) <|
    run_of_next_op rfl (exec_decode_of_raw rfl) <|
    run_of_next_op rfl (exec_chkosc_of_running rfl hosc) <|
    run_of_next_op rfl (exec_tocal_of_f rfl) <|
    run_of_next_op rfl (exec_chkcal_of_pass rfl hok) <|
    run_of_next_op rfl (exec_hpush_of_ts rfl hts) rfl, rfl, rfl, rfl⟩, rfl⟩

end Rdsync

/-! ### `WRHOST`, its ends -/

section Wrhost

variable {s : State} {h : Calendar} (hseq : s.seq = opWords wrhostOps) (hanswer : hostAnswer (worldMove s) = h)

include hseq hanswer

theorem wrhost_hostInvalid (hvalid : h.valid = false) :
    ∃ t, EndsIn s 1 ⟨none, none, none, false, false, some .hostClockInvalid⟩ [.hostGet] t := by
  subst hanswer
  exact ⟨_, run_of_next_op hseq (exec_hget_of_invalid hvalid) rfl, rfl, rfl, rfl⟩

theorem wrhost_refused (hvalid : h.valid = true) (ho : s.params.fromcalOor = .refuse) (hr : calInRange h = false) :
    Host.Core.run Sys2Proof.core 2 s = .refused .outOfRange := by
  subst hanswer
  exact run_of_next_op hseq (exec_hget_of_valid hvalid) <|
    run_of_refused_op 0 rfl (exec_fromcal_outOfRange rfl ho hr)

/-- The first three operations leave the block of the host's record in `RAW`, and the write's answer still to come. -/
theorem wrhost_reaches_write (hvalid : h.valid = true)
    (haccepted : s.params.fromcalOor = .truncate ∨ calInRange h = true) :
    ∃ u : State, u.block = ⟨some (encodeBlock (fromCal h)), some (fromCal h), some h, false, false, none⟩ ∧
      u.calls = .hostGet :: s.calls ∧ u.seq = [] ∧ u.writes = s.writes ∧
      ∀ t, exec .wrblk u = .next t → Host.Core.run Sys2Proof.core 4 s = .next t := by
  subst hanswer
  refine ⟨_, ?_, ?_, ?_, ?_, fun t hwrite =>
    run_of_next_op hseq (exec_hget_of_valid hvalid) <|
    run_of_next_op rfl (exec_fromcal_of_accepted rfl haccepted) <|
    run_of_next_op rfl (exec_encode_of_f rfl) <|
    run_of_next_op rfl hwrite rfl⟩ <;> rfl

/-- The write's answer decides the end: the device holds the block, or TransportError stands. -/
theorem wrhost_writes (hvalid : h.valid = true)
    (haccepted : s.params.fromcalOor = .truncate ∨ calInRange h = true) :
    ∃ okW : Bool, (∀ b bs, s.writes = b :: bs → okW = b) ∧
      (okW = true → ∃ t m,
        EndsIn s 4 ⟨some (encodeBlock (fromCal h)), some (fromCal h), some h, false, false, none⟩
          [.memWrite Config.blockAddr (blockBytes (encodeBlock (fromCal h))), .hostGet] t ∧
        t.dev = Memory.writeRun m Config.blockAddr.toNat (blockBytes (encodeBlock (fromCal h)))) ∧
      (okW = false → ∃ t,
        EndsIn s 4 ⟨none, none, none, false, false, some .transportError⟩
          [.memWrite Config.blockAddr (blockBytes (encodeBlock (fromCal h))), .hostGet] t) := by
  obtain ⟨u, hblock, hcalls, hu, hwrites, hrun⟩ := wrhost_reaches_write hseq hanswer hvalid haccepted
  have hraw : u.raw = some (encodeBlock (fromCal h)) := congrArg BlockState.raw hblock
  refine ⟨writeAnswer u, fun b bs hb => ?_, fun hw => ?_, fun hw => ?_⟩
  · rw [writeAnswer, hwrites, hb, List.headD_cons]
  · refine ⟨_, u.dev, ⟨hrun _ (exec_wrblk_of_success hraw hw), hblock, ?_, hu⟩, ?_⟩
    · rw [afterMemWrite_calls, hcalls]
      rfl
    · have hclear := (Byte_bit7_clear_iff _).mpr (encodeBlock_fromCal_b0_lt h)
      rw [afterMemWrite_dev_of_success _ _ hw, heldBlock_of_clear _ _ hclear]
  · have hhalted : u.halted = false := congrArg BlockState.halted hblock
    have hcalOk : u.calOk = false := congrArg BlockState.calOk hblock
    refine ⟨_, hrun _ (exec_wrblk_of_failure hraw hw), ?_, ?_, rfl⟩
    · simp [State.block, hhalted, hcalOk]
    · rw [raise_calls, afterMemWrite_calls, hcalls]
      rfl

theorem wrhost_succeeds {bs : List Bool} (hvalid : h.valid = true)
    (haccepted : s.params.fromcalOor = .truncate ∨ calInRange h = true) (hw : s.writes = true :: bs) :
    ∃ t, EndsIn s 4 ⟨some (encodeBlock (fromCal h)), some (fromCal h), some h, false, false, none⟩
      [.memWrite Config.blockAddr (blockBytes (encodeBlock (fromCal h))), .hostGet] t := by
  obtain ⟨okW, hokW, hsuccess, -⟩ := wrhost_writes hseq hanswer hvalid haccepted
  obtain ⟨t, -, ht, -⟩ := hsuccess (hokW _ _ hw)
  exact ⟨t, ht⟩

theorem wrhost_fails {bs : List Bool} (hvalid : h.valid = true)
    (haccepted : s.params.fromcalOor = .truncate ∨ calInRange h = true) (hw : s.writes = false :: bs) :
    ∃ t, EndsIn s 4 ⟨none, none, none, false, false, some .transportError⟩
      [.memWrite Config.blockAddr (blockBytes (encodeBlock (fromCal h))), .hostGet] t := by
  obtain ⟨okW, hokW, -, hfailure⟩ := wrhost_writes hseq hanswer hvalid haccepted
  exact hfailure (hokW _ _ hw)

end Wrhost

/-! ### The runs are the functions -/

/-- Settles O56: the four ends of the run are the four cases of the function. -/
theorem rdsyncIsItsFunction : Obligations.RdsyncIsItsFunction := by
  intro s hseq
  cases hread : answerBlock (readAnswer (worldMove s)) with
  | none =>
    obtain ⟨t, ht⟩ := rdsync_readFails hseq hread
    rw [rdsyncResult_of_failure _ hread]
    exact ⟨nofun, t, ht.run, ht.err, by simp [ht.halted], ht.calOk, ht.calls⟩
  | some r =>
    cases hosc : oscStopped (decodeBlock r) with
    | true =>
      obtain ⟨t, ht⟩ := rdsync_halts hseq hread hosc
      rw [rdsyncResult_of_stopped _ hread hosc]
      exact ⟨nofun, t, ht.run, ht.err, by simp [ht.halted], ht.calOk, ht.calls⟩
    | false =>
      cases hok : calendarOk s.params (toCal (decodeBlock r)) with
      | false =>
        obtain ⟨t, ht⟩ := rdsync_badDate hseq hread hosc hok
        rw [rdsyncResult_of_badDate hread hosc hok]
        exact ⟨nofun, t, ht.run, ht.err, by simp [ht.halted], ht.calOk, ht.calls⟩
      | true =>
        obtain ⟨x, hx, hlo, hhi⟩ := calendarOk_timestamp hok
        obtain ⟨t, ht, hhost⟩ := rdsync_pushes hseq hread hosc hok hx
        rw [rdsyncResult_of_pass hread hosc hok hx]
        exact ⟨t, ht.run, ht.err, ht.halted, ht.calOk, ht.seq, hhost, ofInt_toInt_of_bounds hlo hhi, ht.calls⟩

/-- Settles O57: the host's record is invalid, refused, or written, and a write succeeds or fails. -/
theorem wrhostIsItsFunction : Obligations.WrhostIsItsFunction := by
  intro s hseq
  cases hvalid : (hostAnswer (worldMove s)).valid with
  | false =>
    obtain ⟨t, ht⟩ := wrhost_hostInvalid hseq rfl hvalid
    rw [wrhostBlock_of_invalid hvalid]
    exact ⟨rfl, t, ht.run, ht.err, ht.halted, ht.calOk, ht.calls⟩
  | true =>
    rw [wrhostBlock_of_valid hvalid]
    refine ⟨wrhost_refused hseq rfl hvalid, fun haccepted => ⟨encodeBlock_fromCal_b0_lt _, ?_⟩⟩
    obtain ⟨okW, hokW, hsuccess, hfailure⟩ := wrhost_writes hseq rfl hvalid haccepted
    cases okW with
    | true =>
      obtain ⟨t, m, ht, hdev⟩ := hsuccess rfl
      refine ⟨true, t, hokW, ht.run, ht.calls, ht.halted, ht.calOk, ?_⟩
      rw [wrhostResult_of_success hvalid, hdev, deviceVl_writeBlock,
        (Byte_bit7_clear_iff _).mpr (encodeBlock_fromCal_b0_lt _)]
      exact ⟨rfl, rfl, ht.err, ht.seq, rfl, fun k hk => Memory_read_writeBlock m _ hk⟩
    | false =>
      obtain ⟨t, ht⟩ := hfailure rfl
      refine ⟨false, t, hokW, ht.run, ht.calls, ht.halted, ht.calOk, ?_⟩
      rw [wrhostResult_of_failure hvalid]
      exact ⟨rfl, rfl, ht.err⟩

/-! ### Nothing but the answers decides how a run ends (spec/44_sequences.md R93) -/

/-- Two runs that end in the same block after the same calls end alike. -/
theorem ends_alike {s s' : State} {k : Nat} {b : BlockState} {new : List PortCall} (hnew : new ≠ [])
    (h : ∃ t, EndsIn s k b new t) (h' : ∃ t', EndsIn s' k b new t') :
    ∃ (k : Nat) (t t' : State) (new : List PortCall), Host.Core.run Sys2Proof.core k s = .next t ∧
      Host.Core.run Sys2Proof.core k s' = .next t' ∧ (t.err ≠ none ∨ t.seq = []) ∧
      (t'.err ≠ none ∨ t'.seq = []) ∧ t.raw = t'.raw ∧ t.f = t'.f ∧ t.c = t'.c ∧ t.halted = t'.halted ∧
      t.calOk = t'.calOk ∧ t.err = t'.err ∧
      t.calls = new ++ s.calls ∧ t'.calls = new ++ s'.calls ∧ new ≠ [] := by
  obtain ⟨t, ht⟩ := h
  obtain ⟨t', ht'⟩ := h'
  have hsame : t.block = t'.block := ht.block.trans ht'.block.symm
  simp only [State.block, BlockState.mk.injEq] at hsame
  obtain ⟨hraw, hf, hc, hhalted, hcalOk, herr⟩ := hsame
  exact ⟨k, t, t', new, ht.run, ht'.run, .inr ht.seq, .inr ht'.seq, hraw, hf, hc, hhalted, hcalOk, herr, ht.calls,
    ht'.calls, hnew⟩

/-- How an `RDSYNC` ends is settled by the parameters and the read's answer. -/
theorem rdsync_end (p : Params) (a : ReadAnswer) : ∃ (k : Nat) (b : BlockState) (new : List PortCall), new ≠ [] ∧
    ∀ s : State, s.seq = opWords rdsyncOps → s.params = p → readAnswer (worldMove s) = a →
      ∃ t, EndsIn s k b new t := by
  cases hread : answerBlock a with
  | none => exact ⟨_, _, _, List.cons_ne_nil _ _, fun s hseq _ ha => rdsync_readFails hseq (ha ▸ hread)⟩
  | some r =>
    cases hosc : oscStopped (decodeBlock r) with
    | true => exact ⟨_, _, _, List.cons_ne_nil _ _, fun s hseq _ ha => rdsync_halts hseq (ha ▸ hread) hosc⟩
    | false =>
      cases hok : calendarOk p (toCal (decodeBlock r)) with
      | false => exact ⟨_, _, _, List.cons_ne_nil _ _, fun s hseq hp ha =>
          rdsync_badDate hseq (ha ▸ hread) hosc (hp ▸ hok)⟩
      | true =>
        obtain ⟨x, hx, -⟩ := calendarOk_timestamp hok
        exact ⟨_, _, _, List.cons_ne_nil _ _, fun s hseq hp ha =>
          (rdsync_pushes hseq (ha ▸ hread) hosc (hp ▸ hok) hx).imp fun _ ht => ht.1⟩

/-- How a `WRHOST` that is not refused ends is settled by the parameters and the two answers. -/
theorem wrhost_end (p : Params) (h : Calendar) (okW : Bool)
    (haccepted : p.fromcalOor = .truncate ∨ calInRange h = true ∨ h.valid = false) :
    ∃ (k : Nat) (b : BlockState) (new : List PortCall), new ≠ [] ∧
      ∀ (s : State) (bs : List Bool), s.seq = opWords wrhostOps → s.params = p → hostAnswer (worldMove s) = h →
        s.writes = okW :: bs → ∃ t, EndsIn s k b new t := by
  cases hvalid : h.valid with
  | false => exact ⟨_, _, _, List.cons_ne_nil _ _, fun s _ hseq _ hh _ => wrhost_hostInvalid hseq hh hvalid⟩
  | true =>
    have haccepted : p.fromcalOor = .truncate ∨ calInRange h = true := by simpa [hvalid] using haccepted
    cases okW with
    | true => exact ⟨_, _, _, List.cons_ne_nil _ _, fun s bs hseq hp hh hw =>
        wrhost_succeeds hseq hh hvalid (hp ▸ haccepted) hw⟩
    | false => exact ⟨_, _, _, List.cons_ne_nil _ _, fun s bs hseq hp hh hw =>
        wrhost_fails hseq hh hvalid (hp ▸ haccepted) hw⟩

/-- Settles O58: two runs of a transaction with the same answers have the same end, and a refused record is refused in
both. -/
theorem transactionsAreIndependent : Obligations.TransactionsAreIndependent := by
  refine ⟨fun s s' hseq hseq' hparams hread => ?_,
    fun s s' okW bs bs' hseq hseq' hparams haccepted hanswer hwrites hwrites' => ?_,
    fun s s' hseq hseq' hparams ho hanswer hvalid hr => ⟨wrhost_refused hseq rfl hvalid ho hr,
      wrhost_refused hseq' hanswer.symm hvalid (hparams ▸ ho) hr⟩⟩
  · obtain ⟨k, b, new, hnew, hends⟩ := rdsync_end s.params (readAnswer (worldMove s))
    exact ends_alike hnew (hends s hseq rfl rfl) (hends s' hseq' hparams.symm hread.symm)
  · obtain ⟨k, b, new, hnew, hends⟩ := wrhost_end s.params (hostAnswer (worldMove s)) okW haccepted
    exact ends_alike hnew (hends s bs hseq rfl rfl hwrites) (hends s' bs' hseq' hparams.symm hanswer.symm hwrites')

end Sys2Proof.Machine
end
